-- ==== Sys2Proof/Word.lean ====
section
/-! DEFINITION. The words of the block: 8-bit bytes and 16-bit lengths, all unsigned (spec/00_scope R12). -/

namespace Sys2Proof

/-- `u8` of R12: a raw byte, a data byte, a command, an address, a checksum. -/
abbrev Byte := BitVec 8

/-- `u16` of R12: the payload length and the payload count (R9, R27, R28). -/
abbrev Half := BitVec 16

end Sys2Proof
end

