-- ==== Sys2Proof/Config.lean ====
section
/-! DEFINITION. What is fixed before the block runs: the constants of spec/00_scope R6 in one record (as
spec/92 D32 asks, so that they can be corrected in one place), and the parameters of R7. -/

namespace Sys2Proof

/-- The constants of R6 that some rule of the block uses. -/
structure WireConstants where
  /-- `DELIM`, the start delimiter. -/
  delim : Byte
  /-- `ESC`, the escape marker. -/
  esc : Byte
  /-- `ESC_MASK`, exclusive-ored with an escaped byte. -/
  escMask : Byte
  /-- `CRC_POLY`, x^8 + x^2 + x + 1 with the x^8 term implicit. -/
  crcPoly : Byte
  /-- `CRC_INIT`, the initial accumulator. -/
  crcInit : Byte
  /-- `BROADCAST`, the address every parser accepts. -/
  broadcast : Byte
  /-- `MASTER`, no rule of the block treats it specially. -/
  master : Byte
  /-- `ACK`, a command code opaque to the block (R104). -/
  ack : Byte
  /-- `NACK`, a command code opaque to the block (R104). -/
  nack : Byte
  deriving DecidableEq, Repr

/-- The values of R6 (taken as normative by D32; log 15). -/
abbrev wire : WireConstants where
  delim := 0xAA#8
  esc := 0xAB#8
  escMask := 0x20#8
  crcPoly := 0x07#8
  crcInit := 0x00#8
  broadcast := 0x00#8
  master := 0x01#8
  ack := 0xEE#8
  nack := 0xFF#8

/-- The parameters of R7, fixed when an instance is built. They are OPEN (D2 to D5): every claim is for all of
them, or for all that satisfy `Params.Wf`. -/
structure Params where
  /-- `MAX_PAYLOAD`. -/
  maxPayload : Nat
  /-- `QUEUE_CAPACITY`. -/
  queueCapacity : Nat
  /-- `MAX_ESCAPED`. -/
  maxEscaped : Nat
  /-- `MY_ADDR` (R35). -/
  myAddr : Byte
  deriving DecidableEq, Repr

/-- The instance of the vectors of spec/95: `MY_ADDR=02 MAX_PAYLOAD=8 QUEUE_CAPACITY=2 MAX_ESCAPED=26`.
DESIGN CHOICE, unsafe: `State.reset` has to name one instance (log 3). -/
def Params.vectors : Params where
  maxPayload := 8
  queueCapacity := 2
  maxEscaped := 26
  myAddr := 0x02#8

end Sys2Proof
end

