-- ==== Sys2Proof/Syntax.lean ====
section
/-! DEFINITION. One constructor for each of the 33 rows of spec/opcode_table.json, in the table's order. Only the
first eight are operations at a port (spec/00_scope R10); the others are the levels at which the block decodes
what it receives (spec/30_encoding R107), the internal enqueue, and the codes of the EV output. -/

namespace Sys2Proof

/-- The rows of the table with their operands. -/
inductive Instr where
  /-- `RX b` (R170): port RX. -/
  | rx (b : Byte)
  /-- `Q.READ` (R213): port RD. -/
  | qRead
  /-- `TX.SEND a c p` (R233): port TX. -/
  | txSend (a c : Byte) (p : List Byte)
  /-- `TX.SEND1 a c b` (R240): port TX. -/
  | txSend1 (a c b : Byte)
  /-- `CRC8.UPDATE acc b` (R150): port CRC. -/
  | crc8Update (acc b : Byte)
  /-- `CRC8.CALC bytes` (R152): port CRC. -/
  | crc8Calc (bytes : List Byte)
  /-- `ESCAPE data` (R131): port ESCP. -/
  | escape (data : List Byte)
  /-- `RESET` (R250): port SYS. -/
  | reset
  /-- `Q.PUSH (cmd, payload)` (R211): internal, no port. -/
  | qPush (cmd : Byte) (payload : List Byte)
  /-- `RX.DELIM` (R171): the raw byte 0xAA. -/
  | rxDelim
  /-- `RX.IDLE` (R173): the raw byte `b` outside a frame. -/
  | rxIdle (b : Byte)
  /-- `RX.UNESC` (R174): the raw byte `b` after an escape marker. -/
  | rxUnesc (b : Byte)
  /-- `RX.ESC` (R175): the raw byte 0xAB as an escape marker. -/
  | rxEsc
  /-- `RX.DATA` (R176): the raw byte `b` as a data byte. -/
  | rxData (b : Byte)
  /-- `RX.ADDR` (R177): the data byte `d` in `ReadAddr`. -/
  | rxAddr (d : Byte)
  /-- `RX.CMD` (R178): the data byte `d` in `ReadCmd`. -/
  | rxCmd (d : Byte)
  /-- `RX.LEN_LO` (R180): the data byte `d` in `ReadLen`, phase 0. -/
  | rxLenLo (d : Byte)
  /-- `RX.LEN_HI` (R181): the data byte `d` in `ReadLen`, phase 1. -/
  | rxLenHi (d : Byte)
  /-- `RX.PAYLOAD` (R183): the data byte `d` in `ReadPayload`. -/
  | rxPayload (d : Byte)
  /-- `RX.CHECKSUM` (R185): the data byte `d` in `ReadChecksum`. -/
  | rxChecksum (d : Byte)
  /-- `FRAME` (R93): the frame of address `a`, command `c`, payload `p`. -/
  | frame (a c : Byte) (p : List Byte)
  /-- `PACKET` (R91): the packet of address `a`, command `c`, payload `p`. -/
  | packet (a c : Byte) (p : List Byte)
  /-- `ACK` (R104): the command code 0xEE. -/
  | ack
  /-- `NACK` (R104): the command code 0xFF. -/
  | nack
  /-- `BROADCAST` (R61): the address code 0x00. -/
  | broadcast
  /-- `MASTER` (R61): the address code 0x01. -/
  | master
  /-- `EV_NONE` (R261). -/
  | evNone
  /-- `EV_FRAME_OK` (R261). -/
  | evFrameOk
  /-- `EV_RESYNC` (R261). -/
  | evResync
  /-- `EV_ADDR_SKIP` (R261). -/
  | evAddrSkip
  /-- `EV_SIZE_VIOLATION` (R261). -/
  | evSizeViolation
  /-- `EV_CRC_FAIL` (R261). -/
  | evCrcFail
  /-- `EV_QUEUE_FULL` (R261). -/
  | evQueueFull
  deriving DecidableEq, Repr

end Sys2Proof
end

