-- ==== Sys2Proof/WellFormed.lean ====
section
/-! DEFINITION. Which terms of `Instr` are instructions the spec has: the byte classes of spec/30_encoding R99, the
16-bit length field of R91, and the ranges of the parameters (spec/00_scope R7). -/

namespace Sys2Proof

/-- The largest payload length the 16-bit length field can say (R91, R234). -/
abbrev maxLength : Nat := 65535

/-- A term is well formed when the raw byte of a class row can be in that class (R99) and a length carried in a
16-bit field fits it (R37, R91). -/
def Instr.wf : Instr → Bool
  | .rxIdle b => b != wire.delim
  | .rxUnesc b => b != wire.delim
  | .rxData b => b != wire.delim && b != wire.esc
  | .qPush _ payload => decide (payload.length ≤ maxLength)
  | .frame _ _ p => decide (p.length ≤ maxLength)
  | .packet _ _ p => decide (p.length ≤ maxLength)
  | .rx _ | .qRead | .txSend _ _ _ | .txSend1 _ _ _ | .crc8Update _ _ | .crc8Calc _ | .escape _ | .reset => true
  | .rxDelim | .rxEsc | .rxAddr _ | .rxCmd _ | .rxLenLo _ | .rxLenHi _ | .rxPayload _ | .rxChecksum _ => true
  | .ack | .nack | .broadcast | .master => true
  | .evNone | .evFrameOk | .evResync | .evAddrSkip | .evSizeViolation | .evCrcFail | .evQueueFull => true

/-- The constraints R7 puts on the parameters. -/
structure Params.Wf (p : Params) : Prop where
  /-- `1 <= MAX_PAYLOAD` (D2). -/
  payloadPos : 1 ≤ p.maxPayload
  /-- `MAX_PAYLOAD <= 65535` (D2). -/
  payloadMax : p.maxPayload ≤ maxLength
  /-- `QUEUE_CAPACITY >= 1` (D3). -/
  capacityPos : 1 ≤ p.queueCapacity
  /-- `MAX_ESCAPED >= 2 * (MAX_PAYLOAD + 5)` (D4). -/
  escapedMin : 2 * (p.maxPayload + 5) ≤ p.maxEscaped

end Sys2Proof
end

