-- ==== Sys2Proof/Decode.lean ====
section
/-! DEFINITION. The words of the operations, their decoder and their encoder.

The block has no binary instruction word: "the port id and the operand order are the encoding" (spec/30_encoding
R107), and each format of spec/opcode_table.json has a code space of its own, so one code stands for rows of
several formats (0x00 for RX, BROADCAST and EV_NONE; 0xAA for RX.DELIM and FRAME).  DESIGN CHOICE (log 2): a word is

* byte 0: the row's code in the code space of its format, so that it meets the row's match and mask; for a row with
  mask 0 whose operand is the byte the mask is about (a raw byte, a data byte, the address of a packet), that byte;
* byte 1: a selector that says which format byte 0 is read in; selector 0 reads the port ids of R10 with the first
  operation of each port, and the codes that no port has;
* then the operands in the order of R105, a list as marked elements (`01 b` each, `00` at the end), the payload of
  FRAME and PACKET as the 16-bit little-endian length of R91 and that many bytes. -/

namespace Sys2Proof

/-- Why bytes are no word of an operation. -/
inductive DecodeError where
  /-- There is no byte at all. -/
  | noWord
  /-- The bytes end inside a word. -/
  | endsInside
  /-- No row has the code `code` under the selector `selector`. -/
  | unknownRow (code selector : Byte)
  /-- A list element is marked by neither 0x00 nor 0x01. -/
  | badListMark (mark : Byte)
  /-- The operands are not well formed for the row (`Instr.wf`). -/
  | illFormed
  deriving DecidableEq, Repr

/-- One byte. -/
def readByte : List Byte → Except DecodeError (Byte × List Byte)
  | [] => .error .endsInside
  | b :: rest => .ok (b, rest)

/-- A list of marked elements. -/
def readMarked : List Byte → Except DecodeError (List Byte × List Byte)
  | [] => .error .endsInside
  | [mark] => if mark = 0 then .ok ([], []) else if mark = 1 then .error .endsInside else .error (.badListMark mark)
  | mark :: b :: rest =>
    if mark = 0 then .ok ([], b :: rest)
    else if mark = 1 then (readMarked rest).map fun (l, left) => (b :: l, left)
    else .error (.badListMark mark)

/-- `n` bytes. -/
def readBytes : Nat → List Byte → Except DecodeError (List Byte × List Byte)
  | 0, rest => .ok ([], rest)
  | _ + 1, [] => .error .endsInside
  | n + 1, b :: rest => (readBytes n rest).map fun (l, left) => (b :: l, left)

/-- A 16-bit little-endian length (R63, R97) and that many bytes. -/
def readCounted : List Byte → Except DecodeError (List Byte × List Byte)
  | lo :: hi :: rest => readBytes (hi ++ lo : Half).toNat rest
  | _ => .error .endsInside

/-- Selector 0: the first operation of each port (R10), and the codes that are no port's. -/
def decodePlain (code : Byte) (ops : List Byte) : Except DecodeError (Instr × List Byte) :=
  match code.toNat with
  | 0x00 => do
    let (b, rest) ← readByte ops
    pure (.rx b, rest)
  | 0x01 => pure (.qRead, ops)
  | 0x02 => do
    let (a, rest) ← readByte ops
    let (c, rest) ← readByte rest
    let (p, rest) ← readMarked rest
    pure (.txSend a c p, rest)
  | 0x03 => do
    let (acc, rest) ← readByte ops
    let (b, rest) ← readByte rest
    pure (.crc8Update acc b, rest)
  | 0x04 => do
    let (data, rest) ← readMarked ops
    pure (.escape data, rest)
  | 0x05 => pure (.reset, ops)
  | 0x06 => pure (.evQueueFull, ops)
  | 0xAA => pure (.rxDelim, ops)
  | 0xAB => pure (.rxEsc, ops)
  | 0xEE => pure (.ack, ops)
  | 0xFF => pure (.nack, ops)
  | _ => .error (.unknownRow code 0)

/-- Selector 1: the second operation of a port (R107, the rows' `variant`). -/
def decodeSecond (code : Byte) (ops : List Byte) : Except DecodeError (Instr × List Byte) :=
  match code.toNat with
  | 0x02 => do
    let (a, rest) ← readByte ops
    let (c, rest) ← readByte rest
    let (b, rest) ← readByte rest
    pure (.txSend1 a c b, rest)
  | 0x03 => do
    let (bytes, rest) ← readMarked ops
    pure (.crc8Calc bytes, rest)
  | _ => .error (.unknownRow code 1)

/-- Selector 2: the internal operation. -/
def decodeInternal (code : Byte) (ops : List Byte) : Except DecodeError (Instr × List Byte) :=
  match code.toNat with
  | 0x00 => do
    let (cmd, rest) ← readByte ops
    let (payload, rest) ← readMarked rest
    pure (.qPush cmd payload, rest)
  | _ => .error (.unknownRow code 2)

/-- Selector 12: a frame, matched on its first byte (R93). -/
def decodeFrame (code : Byte) (ops : List Byte) : Except DecodeError (Instr × List Byte) :=
  if code = wire.delim then do
    let (a, rest) ← readByte ops
    let (c, rest) ← readByte rest
    let (p, rest) ← readCounted rest
    pure (.frame a c p, rest)
  else .error (.unknownRow code 12)

/-- Selector 13: a packet, byte 0 its address (R91). -/
def decodePacket (a : Byte) (ops : List Byte) : Except DecodeError (Instr × List Byte) := do
  let (c, rest) ← readByte ops
  let (p, rest) ← readCounted rest
  pure (.packet a c p, rest)

/-- Selector 14: the address codes with a fixed meaning (R61). -/
def decodeAddressCode (code : Byte) (ops : List Byte) : Except DecodeError (Instr × List Byte) :=
  match code.toNat with
  | 0x00 => pure (.broadcast, ops)
  | 0x01 => pure (.master, ops)
  | _ => .error (.unknownRow code 14)

/-- Selector 15: the event codes (R261) whose number is also a port's. -/
def decodeEventCode (code : Byte) (ops : List Byte) : Except DecodeError (Instr × List Byte) :=
  match code.toNat with
  | 0 => pure (.evNone, ops)
  | 1 => pure (.evFrameOk, ops)
  | 2 => pure (.evResync, ops)
  | 3 => pure (.evAddrSkip, ops)
  | 4 => pure (.evSizeViolation, ops)
  | 5 => pure (.evCrcFail, ops)
  | _ => .error (.unknownRow code 15)

/-- The row of the code `code` under the selector `selector`, with its operands. Selectors 3 to 5 are the class
rows of R99 that match every raw byte, 6 to 11 the rows of R176. -/
def decodeRow (code selector : Byte) (ops : List Byte) : Except DecodeError (Instr × List Byte) :=
  match selector.toNat with
  | 0 => decodePlain code ops
  | 1 => decodeSecond code ops
  | 2 => decodeInternal code ops
  | 3 => pure (.rxIdle code, ops)
  | 4 => pure (.rxUnesc code, ops)
  | 5 => pure (.rxData code, ops)
  | 6 => pure (.rxAddr code, ops)
  | 7 => pure (.rxCmd code, ops)
  | 8 => pure (.rxLenLo code, ops)
  | 9 => pure (.rxLenHi code, ops)
  | 10 => pure (.rxPayload code, ops)
  | 11 => pure (.rxChecksum code, ops)
  | 12 => decodeFrame code ops
  | 13 => decodePacket code ops
  | 14 => decodeAddressCode code ops
  | 15 => decodeEventCode code ops
  | _ => .error (.unknownRow code selector)

/-- Only well-formed instructions are decoded. -/
def keepWellFormed (r : Instr × List Byte) : Except DecodeError (Instr × List Byte) :=
  if r.1.wf then .ok r else .error .illFormed

/-- The instruction at the front of a byte list, and the bytes after it. Total; refuses by name. -/
def decode : List Byte → Except DecodeError (Instr × List Byte)
  | [] => .error .noWord
  | [_] => .error .endsInside
  | code :: selector :: ops => do
    let r ← decodeRow code selector ops
    keepWellFormed r

/-- A list as marked elements. -/
def markedBytes : List Byte → List Byte
  | [] => [0x00]
  | b :: rest => 0x01 :: b :: markedBytes rest

/-- A list as its 16-bit little-endian length and its bytes (R63, R91). -/
def countedBytes (p : List Byte) : List Byte :=
  let n : Half := BitVec.ofNat 16 p.length
  n.extractLsb' 0 8 :: n.extractLsb' 8 8 :: p

/-- The word of an instruction. -/
def encode : Instr → List Byte
  | .rx b => [0x00, 0, b]
  | .qRead => [0x01, 0]
  | .txSend a c p => 0x02 :: 0 :: a :: c :: markedBytes p
  | .txSend1 a c b => [0x02, 1, a, c, b]
  | .crc8Update acc b => [0x03, 0, acc, b]
  | .crc8Calc bytes => 0x03 :: 1 :: markedBytes bytes
  | .escape data => 0x04 :: 0 :: markedBytes data
  | .reset => [0x05, 0]
  | .qPush cmd payload => 0x00 :: 2 :: cmd :: markedBytes payload
  | .rxDelim => [0xAA, 0]
  | .rxIdle b => [b, 3]
  | .rxUnesc b => [b, 4]
  | .rxEsc => [0xAB, 0]
  | .rxData b => [b, 5]
  | .rxAddr d => [d, 6]
  | .rxCmd d => [d, 7]
  | .rxLenLo d => [d, 8]
  | .rxLenHi d => [d, 9]
  | .rxPayload d => [d, 10]
  | .rxChecksum d => [d, 11]
  | .frame a c p => 0xAA :: 12 :: a :: c :: countedBytes p
  | .packet a c p => a :: 13 :: c :: countedBytes p
  | .ack => [0xEE, 0]
  | .nack => [0xFF, 0]
  | .broadcast => [0x00, 14]
  | .master => [0x01, 14]
  | .evNone => [0x00, 15]
  | .evFrameOk => [0x01, 15]
  | .evResync => [0x02, 15]
  | .evAddrSkip => [0x03, 15]
  | .evSizeViolation => [0x04, 15]
  | .evCrcFail => [0x05, 15]
  | .evQueueFull => [0x06, 0]

/-- The `mask` of an instruction's row in spec/opcode_table.json. -/
def Instr.tableMask : Instr → Byte
  | .rx _ | .qRead | .txSend _ _ _ | .txSend1 _ _ _ | .crc8Update _ _ | .crc8Calc _ | .escape _ | .reset => 0x07
  | .qPush _ _ | .rxIdle _ | .rxUnesc _ | .rxData _ => 0x00
  | .rxAddr _ | .rxCmd _ | .rxLenLo _ | .rxLenHi _ | .rxPayload _ | .rxChecksum _ | .packet _ _ _ => 0x00
  | .rxDelim | .rxEsc | .frame _ _ _ | .ack | .nack | .broadcast | .master => 0xFF
  | .evNone | .evFrameOk | .evResync | .evAddrSkip | .evSizeViolation | .evCrcFail | .evQueueFull => 0x07

/-- The `match` of an instruction's row in spec/opcode_table.json. -/
def Instr.tableMatch : Instr → Byte
  | .rx _ => 0x0
  | .qRead => 0x1
  | .txSend _ _ _ | .txSend1 _ _ _ => 0x2
  | .crc8Update _ _ | .crc8Calc _ => 0x3
  | .escape _ => 0x4
  | .reset => 0x5
  | .qPush _ _ | .rxIdle _ | .rxUnesc _ | .rxData _ => 0x0
  | .rxAddr _ | .rxCmd _ | .rxLenLo _ | .rxLenHi _ | .rxPayload _ | .rxChecksum _ | .packet _ _ _ => 0x0
  | .rxDelim | .frame _ _ _ => 0xAA
  | .rxEsc => 0xAB
  | .ack => 0xEE
  | .nack => 0xFF
  | .broadcast => 0x00
  | .master => 0x01
  | .evNone => 0
  | .evFrameOk => 1
  | .evResync => 2
  | .evAddrSkip => 3
  | .evSizeViolation => 4
  | .evCrcFail => 5
  | .evQueueFull => 6

/-- The first `n` bytes of a number, least significant first. -/
def bytesOf : Nat → Nat → List Byte
  | 0, _ => []
  | n + 1, w => BitVec.ofNat 8 w :: bytesOf n (w / 256)

/-- The bytes of a word of the table: its `nbits` bits in whole bytes, the first byte the least significant, then
zeros for every operand byte the table gives no bits; the longest word with zero operands has six bytes. -/
def tableBytes (nbits w : Nat) : List Byte :=
  bytesOf ((nbits + 7) / 8) w ++ List.replicate 8 0

/-- The instruction the decoder reads from a word numbered as spec/opcode_table.json numbers it. -/
def decodeTableWord (nbits w : Nat) : Option Instr :=
  match decode (tableBytes nbits w) with
  | .ok (i, _) => some i
  | .error _ => none

/-- A table word as exactly the bytes of the instruction it decodes to; as it is where it decodes to none. -/
def tableWord (nbits w : Nat) : List Byte :=
  let bytes := tableBytes nbits w
  match decode bytes with
  | .ok (_, rest) => bytes.take (bytes.length - rest.length)
  | .error _ => bytes

end Sys2Proof
end

