-- ==== Sys2Proof/Machine/State.lean ====
section
/-! DEFINITION. The state of one channel instance (spec/10_state R20 to R46) as plain data, the outputs and the
environment it is observed through, and why a step stops. -/

namespace Sys2Proof.Machine

/-- `P.st` (R23), in the source's order; the numbers 0 to 5 are not observable (D6). -/
inductive PState where
  /-- Initial, and the end of every frame. -/
  | waitStart
  /-- The next data byte is the address. -/
  | readAddr
  /-- The next data byte is the command. -/
  | readCmd
  /-- The next data byte is a length byte. -/
  | readLen
  /-- The next data byte is a payload byte. -/
  | readPayload
  /-- The next data byte is the checksum. -/
  | readChecksum
  deriving DecidableEq, Repr

/-- The event codes of R261. -/
inductive Event where
  /-- Nothing to report. -/
  | evNone
  /-- A good frame was enqueued. -/
  | evFrameOk
  /-- A delimiter threw away a frame in progress. -/
  | evResync
  /-- The frame is for another address. -/
  | evAddrSkip
  /-- The declared length exceeds the maximum. -/
  | evSizeViolation
  /-- The received checksum differs. -/
  | evCrcFail
  /-- A good frame was dropped because the queue was full. -/
  | evQueueFull
  deriving DecidableEq, Repr

/-- The parser registers `P` (R23 to R32). -/
structure Parser where
  /-- `P.st` (R23). -/
  st : PState
  /-- `P.len_phase` (R24). -/
  lenPhase : Bool
  /-- `P.addr` (R25). -/
  addr : Byte
  /-- `P.cmd` (R26). -/
  cmd : Byte
  /-- `P.len` (R27). -/
  len : Half
  /-- `P.cnt` (R28). -/
  cnt : Half
  /-- `P.pay` (R29): the array of `MAX_PAYLOAD` bytes; only indices below `P.cnt` are meaningful. -/
  pay : List Byte
  /-- `P.crc` (R30). -/
  crc : Byte
  /-- `P.rx_ck` (R31). -/
  rxCk : Byte
  /-- `P.esc` (R32). -/
  esc : Bool
  deriving DecidableEq, Repr

/-- A Decoded Command (R37): the pair of the command and the payload, whose length is `plen` (D13). -/
structure Entry where
  /-- `cmd`. -/
  cmd : Byte
  /-- `pay[0 .. plen-1]`. -/
  payload : List Byte
  deriving DecidableEq, Repr

/-- The command FIFO `Q` (R38, R39). -/
structure Queue where
  /-- `Q.slot` (R38): the array of `QUEUE_CAPACITY` entries. -/
  slots : List Entry
  /-- `Q.head` (R39). -/
  head : Nat
  /-- `Q.tail` (R39). -/
  tail : Nat
  /-- `Q.count` (R39). -/
  count : Nat
  deriving DecidableEq, Repr

/-- What an operation returns at its port (R105). The model's own type (log 6). -/
inductive Result where
  /-- Nothing: `RESET`, or no operation. -/
  | nothing
  /-- The event code of an `RX` (R261). -/
  | event (e : Event)
  /-- The event codes of a run of `RX` operations, in order (R106). -/
  | events (es : List Event)
  /-- `Q.READ`: `none`, or the entry (R213). -/
  | entry (e : Option Entry)
  /-- `TX.SEND`: `ok` (R233). -/
  | sent
  /-- `CRC8.UPDATE`, `CRC8.CALC` (R150, R152). -/
  | byte (b : Byte)
  /-- `ESCAPE` (R131). -/
  | escaped (out : List Byte) (truncated : Bool)
  /-- `Q.PUSH` (R211). -/
  | accepted (ok : Bool)
  deriving DecidableEq, Repr

/-- The block has no fault: "no fault that stops it, no trap and no stuck state" (R14; spec/93, end of part 2). -/
inductive Fault where
  deriving DecidableEq, Repr

/-- Why an operation has no meaning (R13 `refuse`, R14). Every one is safe: the model makes no claim there. -/
inductive Refusal where
  /-- Raised by `exec` for an instruction that has no meaning yet; no arm does. Safe. -/
  | notModelled (mnemonic : String)
  /-- Raised by every operation but the pure ones and `RESET` while the instance has not been reset (R251). Safe. -/
  | beforeReset
  /-- Raised by `TX.SEND` for a payload longer than `MAX_PAYLOAD` (R234), and by `Q.PUSH` for one, which R211 does
  not admit as an operand. Safe. -/
  | payloadTooLong
  /-- Raised by a row of the second or third decoding level, named here, in a state or for a byte that does not
  select it (R99, R107, R176), and by `Q.PUSH` anywhere but at its point inside an `RX` (R211). Safe (log 8). -/
  | rowNotSelected (row : String)
  /-- Raised by the failing branch of the defensive bound test in `ReadPayload` (R183, R184): the treatment of
  spec/93 U3. No run reaches it. Safe (log 14). -/
  | payloadBound
  /-- Raised by `FRAME` and `PACKET` for a payload whose length the 16-bit field cannot say (R234). Safe (log 11). -/
  | lengthNotExpressible
  /-- Raised by `step` for a row that no port reaches and no arriving byte brings about: `Q.PUSH`, an event code, a row of
  the data level that the byte at RX would not select (R10, R107). Safe (log 10). -/
  | notAtPort
  /-- Raised by `step` where the trace holds no word of an operation (log 2). Safe. -/
  | undecodable (why : DecodeError)
  deriving DecidableEq, Repr

/-- One channel instance, its outputs, and the operations its agents perform next. -/
structure State where
  /-- The parameters of the instance (R7, R35, R36): constant, no operation writes them (log 3). -/
  params : Params
  /-- Whether the instance has been reset since it came up (R251; log 5). -/
  ready : Bool
  /-- The parser registers. -/
  p : Parser
  /-- The command FIFO. -/
  q : Queue
  /-- The SINK stream: what has been emitted so far (R236; log 7). -/
  sink : List Byte
  /-- The output of the operation just completed; not held into the next one (R264; log 6). -/
  result : Result
  /-- The words of the operations the agents perform next, in their total order (R11; log 1). -/
  trace : List Byte
  deriving DecidableEq, Repr

/-- The parser after reset (R46). `P.pay` is unspecified and unreadable there: zeros, DESIGN CHOICE (log 4). -/
def Parser.reset (params : Params) : Parser where
  st := .waitStart
  lenPhase := false
  addr := 0x00#8
  cmd := 0x00#8
  len := 0x0000#16
  cnt := 0#16
  pay := List.replicate params.maxPayload 0x00#8
  crc := 0x00#8
  rxCk := 0x00#8
  esc := false

/-- An entry that nothing has written: what the model lets an unspecified slot hold. DESIGN CHOICE (log 4). -/
def Entry.unwritten : Entry where
  cmd := 0x00#8
  payload := []

/-- The queue after reset (R46). -/
def Queue.reset (params : Params) : Queue where
  slots := List.replicate params.queueCapacity Entry.unwritten
  head := 0
  tail := 0
  count := 0

/-- The instance with the given parameters right after reset (R46), nothing emitted and no operation offered. -/
def State.resetWith (params : Params) : State where
  params := params
  ready := true
  p := Parser.reset params
  q := Queue.reset params
  sink := []
  result := .nothing
  trace := []

/-- The machine right after reset (R46), for the instance of spec/95 (log 3). -/
def State.reset : State :=
  State.resetWith Params.vectors

/-- An instance that has come up and has not been reset (R251, R292 step 2): its state is undefined, here whatever
`garbage` holds, and only `RESET` and the pure operations are valid. -/
def State.powerUp (garbage : State) : State :=
  { garbage with ready := false }

end Sys2Proof.Machine
end

