-- ==== Sys2Proof/Machine/Ops.lean ====
section
/-! DEFINITION. The named operations over the registers, the two arrays and the outputs: guards (spec/00_scope R14),
the reporting of a condition (spec/60_exceptions R266), the per-frame reset (spec/42 R172, R187), the buffers
(spec/20_memory R60), the FIFO (spec/43 R211, R213) and the sink (spec/44 R236). -/

namespace Sys2Proof.Machine

/-- What an operation answers. -/
abbrev Answer := Host.Outcome State Fault Refusal

/-- Goes on from a next state; stops where the first operation stopped. -/
def andThen (o : Answer) (k : State → Answer) : Answer :=
  match o with
  | .next s => k s
  | .fault r => .fault r
  | .refused r => .refused r

/-- Before the first `RESET` every operation but `RESET` and the pure ones is refused (R251, D22). -/
def whenReady (s : State) (o : Answer) : Answer :=
  if s.ready then o else .refused .beforeReset

/-- A row of the second or third decoding level runs only when it is selected (R99, R176, R14). -/
def whenSelected (selected : Bool) (row : String) (o : Answer) : Answer :=
  if selected then o else .refused (.rowNotSelected row)

/-- Completes with an output. -/
def finish (r : Result) (s : State) : Answer :=
  .next { s with result := r }

/-- `emit EV_x` (R13): the block's whole "exception entry" (R266). The code goes out on EV; nothing is saved, no mode
changes, control goes nowhere (R262, R264), and so there is nothing to return from (R267). -/
def report (e : Event) (s : State) : Answer :=
  finish (.event e) s

/-- `frame_clear(P)` (R172): every per-frame register; not `P.st`, not the bytes of `P.pay`. -/
def frameClear (p : Parser) : Parser :=
  { p with
    addr := 0x00#8
    cmd := 0x00#8
    len := 0x0000#16
    lenPhase := false
    cnt := 0#16
    crc := wire.crcInit
    rxCk := 0x00#8
    esc := false }

/-- `idle(P)` (R187). -/
def idle (p : Parser) : Parser :=
  { frameClear p with st := .waitStart }

/-- The parser at the start of a frame (R171). -/
def frameStart (p : Parser) : Parser :=
  { frameClear p with st := .readAddr }

/-- `BufWrite(buf, i, v)` (R13): one byte. -/
def bufWrite (buf : List Byte) (i : Nat) (v : Byte) : List Byte :=
  buf.set i v

/-- `BufRead` of the indices `0 .. n-1`, in order (R185, R64). -/
def bufReadAll (buf : List Byte) (n : Nat) : List Byte :=
  buf.take n

/-- `Q.PUSH e` on the registers (R211): the queue after, and whether `e` was accepted. -/
def Queue.push (capacity : Nat) (e : Entry) (q : Queue) : Queue × Bool :=
  if q.count = capacity then (q, false)
  else
    ({ q with
        slots := q.slots.set q.tail e
        tail := (q.tail + 1) % capacity
        count := q.count + 1 },
      true)

/-- `Q.READ` on the registers (R213, R214): the queue after, and the entry. -/
def Queue.read (capacity : Nat) (q : Queue) : Queue × Option Entry :=
  if q.count = 0 then (q, none)
  else
    ({ q with
        head := (q.head + 1) % capacity
        count := q.count - 1 },
      some (q.slots.getD q.head Entry.unwritten))

/-- `Q.head, Q.tail, Q.count <- 0` (R250); the slots keep what they hold (log 4). -/
def Queue.clear (q : Queue) : Queue :=
  { q with head := 0, tail := 0, count := 0 }

/-- `Q.items` (R40): the abstract view, oldest first. -/
def Queue.items (capacity : Nat) (q : Queue) : List Entry :=
  (List.range q.count).map fun i => q.slots.getD ((q.head + i) % capacity) Entry.unwritten

/-- The queue of a state as the list of R40. -/
abbrev State.items (s : State) : List Entry :=
  s.q.items s.params.queueCapacity

/-- `sink(bytes)` (R236): appends to the SINK stream, which always accepts (D17; log 7). -/
def sinkBytes (bytes : List Byte) (s : State) : State :=
  { s with sink := s.sink ++ bytes }

end Sys2Proof.Machine
end

