-- ==== Sys2Proof/Machine/Operands.lean ====
section
/-! DEFINITION. Operand forms: unescaping and length assembly on receive (spec/30_encoding R96, R97), byte-stuffing on
transmit (R94), and the two decoding levels behind `RX` (R99, spec/42 R176). -/

namespace Sys2Proof.Machine

/-- The data byte of a raw byte under the mask (R96, R174). -/
def unmask (b : Byte) : Byte :=
  b ^^^ wire.escMask

/-- The bytes that stand for a packet byte in the escaped packet (R94). -/
def escapeUnit (v : Byte) : List Byte :=
  if v = wire.delim ∨ v = wire.esc then [wire.esc, v ^^^ wire.escMask] else [v]

/-- The escaped form of a byte list, without a bound on its size (R94, R132). -/
def stuff (data : List Byte) : List Byte :=
  data.flatMap escapeUnit

/-- `unescape` (R135): the specification function, no operation of the block. -/
def unescape : List Byte → List Byte
  | [] => []
  | [v] => if v = wire.esc then [] else [v]
  | v :: x :: rest => if v = wire.esc then unmask x :: unescape rest else v :: unescape (x :: rest)

/-- `P.len[7:0] <- d` (R180). -/
def setLenLow (len : Half) (d : Byte) : Half :=
  len.extractLsb' 8 8 ++ d

/-- `P.len[15:8] <- d` (R181). -/
def setLenHigh (len : Half) (d : Byte) : Half :=
  d ++ len.extractLsb' 0 8

/-- `L[7:0]` (R91, R231). -/
def lenLow (l : Nat) : Byte :=
  BitVec.ofNat 8 l

/-- `L[15:8]` (R91, R231). -/
def lenHigh (l : Nat) : Byte :=
  BitVec.ofNat 8 (l / 256)

/-- The selection of `RX.IDLE` (R99). -/
def selectsIdle (p : Parser) (b : Byte) : Bool :=
  b != wire.delim && p.st == .waitStart

/-- The selection of `RX.UNESC` (R99). -/
def selectsUnesc (p : Parser) (b : Byte) : Bool :=
  b != wire.delim && p.st != .waitStart && p.esc

/-- The selection of `RX.ESC` for the raw byte 0xAB (R99). -/
def selectsEsc (p : Parser) : Bool :=
  p.st != .waitStart && !p.esc

/-- The selection of `RX.DATA` (R99): none of the classes above it. -/
def selectsData (p : Parser) (b : Byte) : Bool :=
  b != wire.delim && p.st != .waitStart && !p.esc && b != wire.esc

/-- The selection of `Q.PUSH` (R211): in `ReadChecksum`, with a matching checksum received, for the Decoded Command that
the parser holds (R185). DEDUCED: `rxCk = crc` stands for the matching checksum (log 8). -/
def selectsPush (p : Parser) (cmd : Byte) (payload : List Byte) : Bool :=
  p.st == .readChecksum && p.rxCk == p.crc && cmd == p.cmd && payload == bufReadAll p.pay p.cnt.toNat

/-- The first decoding level of `RX b` (R99): the class row of the raw byte, in its priority order. A function of
`(P.st, P.esc, b)`, never of `b` alone. -/
def classRow (p : Parser) (b : Byte) : Instr :=
  if b = wire.delim then .rxDelim
  else if p.st = .waitStart then .rxIdle b
  else if p.esc then .rxUnesc b
  else if b = wire.esc then .rxEsc
  else .rxData b

/-- The second decoding level (R176): the row of the data byte `d`; none in `WaitStart`, where no data byte arises. -/
def dataRow (p : Parser) (d : Byte) : Option Instr :=
  match p.st with
  | .waitStart => none
  | .readAddr => some (.rxAddr d)
  | .readCmd => some (.rxCmd d)
  | .readLen => if p.lenPhase then some (.rxLenHi d) else some (.rxLenLo d)
  | .readPayload => some (.rxPayload d)
  | .readChecksum => some (.rxChecksum d)

/-- The number of an event code (R261). -/
def Event.code : Event → BitVec 3
  | .evNone => 0
  | .evFrameOk => 1
  | .evResync => 2
  | .evAddrSkip => 3
  | .evSizeViolation => 4
  | .evCrcFail => 5
  | .evQueueFull => 6

end Sys2Proof.Machine
end

