-- ==== Sys2Proof/Machine/Codec.lean ====
section
/-! DEFINITION. The transmit half of the framing codec (spec/40_framing_codec). -/

namespace Sys2Proof.Machine

/-- The loop of `escape` (R131): `out` is what has been put out so far; the cut falls before the first unit that does
not fit (R133). -/
def escapeInto (maxEscaped : Nat) (out : List Byte) : List Byte → List Byte × Bool
  | [] => (out, false)
  | v :: rest =>
    if out.length + (escapeUnit v).length > maxEscaped then (out, true)
    else escapeInto maxEscaped (out ++ escapeUnit v) rest

/-- `escape(data)` (R131): the output and `truncated`. -/
def escape (maxEscaped : Nat) (data : List Byte) : List Byte × Bool :=
  escapeInto maxEscaped [] data

/-- `ESCAPE data` (R131): pure, valid at any time (R251). -/
def execEscape (data : List Byte) (s : State) : Answer :=
  let escaped := escape s.params.maxEscaped data
  finish (.escaped escaped.1 escaped.2) s

end Sys2Proof.Machine
end

