-- ==== Sys2Proof/Machine/Crc.lean ====
section
/-! DEFINITION. The CRC8 engine (spec/41_crc8). -/

namespace Sys2Proof.Machine

/-- One shift and exclusive-or round (R150); the shift drops bit 7. -/
def crc8Round (a : Byte) : Byte :=
  if a.msb then (a <<< 1) ^^^ wire.crcPoly else a <<< 1

/-- `crc8_update(acc, b)` (R150): eight rounds on `acc ^ b`. -/
def crc8Update (acc b : Byte) : Byte :=
  Nat.repeat crc8Round 8 (acc ^^^ b)

/-- `crc8(bytes)` (R152). -/
def crc8 (bytes : List Byte) : Byte :=
  bytes.foldl crc8Update wire.crcInit

/-- `CRC8.UPDATE acc b` (R150): pure, valid at any time (R251). -/
def execCrc8Update (acc b : Byte) (s : State) : Answer :=
  finish (.byte (crc8Update acc b)) s

/-- `CRC8.CALC bytes` (R152): pure, valid at any time (R251). -/
def execCrc8Calc (bytes : List Byte) (s : State) : Answer :=
  finish (.byte (crc8 bytes)) s

end Sys2Proof.Machine
end

