-- ==== Sys2Proof/Machine/Events.lean ====
section
/-! DEFINITION. The event codes (spec/60_exceptions R261) as operations: the emission of the code on EV and nothing
else (spec/00_scope R13 `emit EV_x`, R262; log 13). -/

namespace Sys2Proof.Machine

/-- `EV_NONE` (R261). -/
def execEvNone (s : State) : Answer :=
  whenReady s (report .evNone s)

/-- `EV_FRAME_OK` (R261). -/
def execEvFrameOk (s : State) : Answer :=
  whenReady s (report .evFrameOk s)

/-- `EV_RESYNC` (R261). -/
def execEvResync (s : State) : Answer :=
  whenReady s (report .evResync s)

/-- `EV_ADDR_SKIP` (R261). -/
def execEvAddrSkip (s : State) : Answer :=
  whenReady s (report .evAddrSkip s)

/-- `EV_SIZE_VIOLATION` (R261). -/
def execEvSizeViolation (s : State) : Answer :=
  whenReady s (report .evSizeViolation s)

/-- `EV_CRC_FAIL` (R261). -/
def execEvCrcFail (s : State) : Answer :=
  whenReady s (report .evCrcFail s)

/-- `EV_QUEUE_FULL` (R261). -/
def execEvQueueFull (s : State) : Answer :=
  whenReady s (report .evQueueFull s)

end Sys2Proof.Machine
end

