-- ==== Sys2Proof/Machine/Fifo.lean ====
section
/-! DEFINITION. The command FIFO's operations (spec/43_command_fifo). -/

namespace Sys2Proof.Machine

/-- `Q.READ` (R213, R214). -/
def execQRead (s : State) : Answer :=
  whenReady s <|
    let read := s.q.read s.params.queueCapacity
    finish (.entry read.2) { s with q := read.1 }

/-- `Q.PUSH (cmd, payload)` (R211): the point inside an `RX` in `ReadChecksum` at which the matching checksum is stored and
the frame not yet cleared; `RX` itself goes through it in `takeChecksum` (R185). Elsewhere it does not run (log 8), and no
port reaches it (log 10). R211 admits operands with `len(payload) <= MAX_PAYLOAD` only. -/
def execQPush (cmd : Byte) (payload : List Byte) (s : State) : Answer :=
  whenReady s <|
    if payload.length > s.params.maxPayload then .refused .payloadTooLong
    else
      whenSelected (selectsPush s.p cmd payload) "Q.PUSH" <|
        let pushed := s.q.push s.params.queueCapacity ⟨cmd, payload⟩
        finish (.accepted pushed.2) { s with q := pushed.1 }

end Sys2Proof.Machine
end

