-- ==== Sys2Proof/Machine/Flags.lean ====
section
/-! DEFINITION. The block has no condition codes (spec/10_state R34). What it computes as flags are the three status
outputs of the FIFO (R42), the checksum comparison (spec/42 R185), the address match (R177) and the length range
(R181). -/

namespace Sys2Proof.Machine

/-- `q_count` (R42). -/
def qCount (s : State) : Nat :=
  s.q.count

/-- `q_empty` (R42). -/
def qEmpty (s : State) : Bool :=
  s.q.count == 0

/-- `q_full` (R42). -/
def qFull (s : State) : Bool :=
  s.q.count == s.params.queueCapacity

/-- The address match (R177): `MY_ADDR` or `BROADCAST`. -/
def addressMatches (params : Params) (d : Byte) : Bool :=
  d == params.myAddr || d == wire.broadcast

/-- `L <= MAX_PAYLOAD` on the full 16-bit value (R97, R181). -/
def lengthInRange (params : Params) (len : Half) : Bool :=
  decide (len.toNat ≤ params.maxPayload)

/-- The defensive bound of `ReadPayload` (R183): the count is below the declared length and the maximum. -/
def payloadFits (params : Params) (p : Parser) : Bool :=
  decide (p.cnt.toNat < p.len.toNat ∧ p.cnt.toNat < params.maxPayload)

end Sys2Proof.Machine
end

