-- ==== Sys2Proof/Machine/Parser.lean ====
section
/-! DEFINITION. The packet parser (spec/42_packet_parser): the steps of `RX` and the rows they are made of. -/

namespace Sys2Proof.Machine

/-- State `ReadAddr` (R177). -/
def takeAddr (d : Byte) (s : State) : Answer :=
  let p := { s.p with crc := crc8Update s.p.crc d, addr := d }
  if addressMatches s.params d then report .evNone { s with p := { p with st := .readCmd } }
  else report .evAddrSkip { s with p := idle p }

/-- State `ReadCmd` (R178): every command code alike (R104). -/
def takeCmd (d : Byte) (s : State) : Answer :=
  report .evNone { s with p := { s.p with cmd := d, crc := crc8Update s.p.crc d, st := .readLen } }

/-- State `ReadLen`, low byte (R180). -/
def takeLenLow (d : Byte) (s : State) : Answer :=
  report .evNone
    { s with p := { s.p with crc := crc8Update s.p.crc d, len := setLenLow s.p.len d, lenPhase := true } }

/-- State `ReadLen`, high byte (R181, R182). -/
def takeLenHigh (d : Byte) (s : State) : Answer :=
  let len := setLenHigh s.p.len d
  let p := { s.p with crc := crc8Update s.p.crc d, len := len, lenPhase := false }
  if len = 0 then report .evNone { s with p := { p with st := .readChecksum } }
  else if lengthInRange s.params len then report .evNone { s with p := { p with st := .readPayload } }
  else report .evSizeViolation { s with p := idle p }

/-- State `ReadPayload` (R183); the failing bound test is refused (R184, spec/93 U3; log 14). -/
def takePayload (d : Byte) (s : State) : Answer :=
  if payloadFits s.params s.p then
    let cnt := s.p.cnt + 1
    let st := if cnt = s.p.len then PState.readChecksum else s.p.st
    report .evNone
      { s with
        p := { s.p with
          crc := crc8Update s.p.crc d, pay := bufWrite s.p.pay s.p.cnt.toNat d, cnt := cnt, st := st } }
  else .refused .payloadBound

/-- State `ReadChecksum` (R185): the checksum is judged before the queue (R265). -/
def takeChecksum (d : Byte) (s : State) : Answer :=
  let p := { s.p with rxCk := d }
  let e : Entry := ⟨p.cmd, bufReadAll p.pay p.cnt.toNat⟩
  if p.crc = p.rxCk then
    let pushed := s.q.push s.params.queueCapacity e
    report (if pushed.2 then .evFrameOk else .evQueueFull) { s with p := idle p, q := pushed.1 }
  else report .evCrcFail { s with p := idle p }

/-- Step 2 (R173): bytes outside a frame. -/
def ignoreByte (s : State) : Answer :=
  report .evNone s

/-- Step 4 (R176): the data byte goes where `P.st` says. No data byte arises in `WaitStart` (R173). -/
def dispatchData (d : Byte) (s : State) : Answer :=
  match s.p.st with
  | .waitStart => ignoreByte s
  | .readAddr => takeAddr d s
  | .readCmd => takeCmd d s
  | .readLen => if s.p.lenPhase then takeLenHigh d s else takeLenLow d s
  | .readPayload => takePayload d s
  | .readChecksum => takeChecksum d s

/-- Step 1 (R171): the delimiter always wins. -/
def restartFrame (s : State) : Answer :=
  report (if s.p.st = .waitStart then .evNone else .evResync) { s with p := frameStart s.p }

/-- Step 3 with the flag set (R174). -/
def takeUnescaped (b : Byte) (s : State) : Answer :=
  dispatchData (unmask b) { s with p := { s.p with esc := false } }

/-- Step 3 at a marker (R175). -/
def takeMarker (s : State) : Answer :=
  report .evNone { s with p := { s.p with esc := true } }

/-- `RX b` (R170, R188). -/
def rxByte (b : Byte) (s : State) : Answer :=
  if b = wire.delim then restartFrame s
  else if s.p.st = .waitStart then ignoreByte s
  else if s.p.esc then takeUnescaped b s
  else if b = wire.esc then takeMarker s
  else dispatchData b s

/-- `RX b` (R170). -/
def execRx (b : Byte) (s : State) : Answer :=
  whenReady s (rxByte b s)

/-- `RX.DELIM` (R171). -/
def execRxDelim (s : State) : Answer :=
  whenReady s (restartFrame s)

/-- `RX.IDLE b` (R173). -/
def execRxIdle (b : Byte) (s : State) : Answer :=
  whenReady s (whenSelected (selectsIdle s.p b) "RX.IDLE" (ignoreByte s))

/-- `RX.UNESC b` (R174). -/
def execRxUnesc (b : Byte) (s : State) : Answer :=
  whenReady s (whenSelected (selectsUnesc s.p b) "RX.UNESC" (takeUnescaped b s))

/-- `RX.ESC` (R175). -/
def execRxEsc (s : State) : Answer :=
  whenReady s (whenSelected (selectsEsc s.p) "RX.ESC" (takeMarker s))

/-- `RX.DATA b` (R176). -/
def execRxData (b : Byte) (s : State) : Answer :=
  whenReady s (whenSelected (selectsData s.p b) "RX.DATA" (dispatchData b s))

/-- `RX.ADDR d` (R177). -/
def execRxAddr (d : Byte) (s : State) : Answer :=
  whenReady s (whenSelected (s.p.st == .readAddr) "RX.ADDR" (takeAddr d s))

/-- `RX.CMD d` (R178). -/
def execRxCmd (d : Byte) (s : State) : Answer :=
  whenReady s (whenSelected (s.p.st == .readCmd) "RX.CMD" (takeCmd d s))

/-- `RX.LEN_LO d` (R180). -/
def execRxLenLo (d : Byte) (s : State) : Answer :=
  whenReady s (whenSelected (s.p.st == .readLen && !s.p.lenPhase) "RX.LEN_LO" (takeLenLow d s))

/-- `RX.LEN_HI d` (R181). -/
def execRxLenHi (d : Byte) (s : State) : Answer :=
  whenReady s (whenSelected (s.p.st == .readLen && s.p.lenPhase) "RX.LEN_HI" (takeLenHigh d s))

/-- `RX.PAYLOAD d` (R183). -/
def execRxPayload (d : Byte) (s : State) : Answer :=
  whenReady s (whenSelected (s.p.st == .readPayload) "RX.PAYLOAD" (takePayload d s))

/-- `RX.CHECKSUM d` (R185). -/
def execRxChecksum (d : Byte) (s : State) : Answer :=
  whenReady s (whenSelected (s.p.st == .readChecksum) "RX.CHECKSUM" (takeChecksum d s))

end Sys2Proof.Machine
end

