-- ==== Sys2Proof/Machine/Serializer.lean ====
section
/-! DEFINITION. The packet serializer (spec/44_packet_serializer). -/

namespace Sys2Proof.Machine

/-- The packet bytes the checksum covers (R231): address, command, length, payload. -/
def packetBody (a c : Byte) (p : List Byte) : List Byte :=
  [a, c, lenLow p.length, lenHigh p.length] ++ p

/-- `packet(a, c, p)` (R231, R91): the body and its checksum. -/
def packet (a c : Byte) (p : List Byte) : List Byte :=
  packetBody a c p ++ [crc8 (packetBody a c p)]

/-- The frame of a packet (R93): the delimiter and the escaped packet. -/
def frame (a c : Byte) (p : List Byte) : List Byte :=
  wire.delim :: stuff (packet a c p)

/-- `frame(a, c, p)` as the serializer builds it, through its escaped buffer of `MAX_ESCAPED` bytes (R232, R41). -/
def frameBuffer (maxEscaped : Nat) (a c : Byte) (p : List Byte) : List Byte :=
  wire.delim :: (escape maxEscaped (packet a c p)).1

/-- `TX.SEND(a, c, p)` (R233, R234). -/
def txSend (a c : Byte) (p : List Byte) (s : State) : Answer :=
  if p.length > s.params.maxPayload then .refused .payloadTooLong
  else finish .sent (sinkBytes (frameBuffer s.params.maxEscaped a c p) s)

/-- `TX.SEND a c p` (R233). -/
def execTxSend (a c : Byte) (p : List Byte) (s : State) : Answer :=
  whenReady s (txSend a c p s)

/-- `TX.SEND1 a c b` (R240): `TX.SEND a c [b]`. -/
def execTxSend1 (a c b : Byte) (s : State) : Answer :=
  whenReady s (txSend a c [b] s)

end Sys2Proof.Machine
end

