-- ==== Sys2Proof/Machine/System.lean ====
section
/-! DEFINITION. The system operation (spec/45_system_ops). -/

namespace Sys2Proof.Machine

/-- `RESET` (R250): valid at any time, and the instance is in use from then on (R251). Parameters and SINK stay. -/
def execReset (s : State) : Answer :=
  finish .nothing { s with ready := true, p := idle s.p, q := s.q.clear }

end Sys2Proof.Machine
end

