-- ==== Sys2Proof/Machine/Wire.lean ====
section
/-! DEFINITION. The rows that name what travels on the wire: the frame and the packet (spec/30_encoding R91, R93), the
command codes (R104) and the address codes (spec/20_memory R61). Each is the arrival of its bytes at port RX (log 11,
log 12). Also the pseudo-operations of R106. -/

namespace Sys2Proof.Machine

/-- The event codes an answer carries: one for an `RX`, the list for a run of them. -/
def Result.eventList : Result → List Event
  | .event e => [e]
  | .events es => es
  | .nothing | .entry _ | .sent | .byte _ | .escaped _ _ | .accepted _ => []

/-- `RXS [b0 .. bn]` (R106): one `RX` per byte in order; the result is the list of event codes. -/
def rxs : List Byte → State → Answer
  | [], s => finish (.events []) s
  | b :: rest, s =>
    andThen (rxByte b s) fun t =>
      andThen (rxs rest t) fun u =>
        finish (.events (t.result.eventList ++ u.result.eventList)) u

/-- `LOOPBACK a c p` (R106) on one instance: `TX.SEND a c p`, then `RXS` of the bytes it put on SINK. -/
def loopback (a c : Byte) (p : List Byte) (s : State) : Answer :=
  andThen (execTxSend a c p s) fun t =>
    whenReady t (rxs (t.sink.drop s.sink.length) t)

/-- `LOOPBACK a c p` (R106) from the instance `s` to another, `r`: the bytes `s` puts on SINK arrive at `r`. The answer is
the receiver's; two instances share nothing (R20, R253). -/
def loopbackTo (a c : Byte) (p : List Byte) (s r : State) : Answer :=
  andThen (execTxSend a c p s) fun t =>
    whenReady r (rxs (t.sink.drop s.sink.length) r)

/-- `FRAME` (R93): the frame arrives, delimiter first. -/
def execFrame (a c : Byte) (p : List Byte) (s : State) : Answer :=
  whenReady s <|
    if p.length > maxLength then .refused .lengthNotExpressible
    else rxs (frame a c p) s

/-- `PACKET` (R91): the packet arrives in its wire form (R90, R94), without a delimiter of its own. -/
def execPacket (a c : Byte) (p : List Byte) (s : State) : Answer :=
  whenReady s <|
    if p.length > maxLength then .refused .lengthNotExpressible
    else rxs (stuff (packet a c p)) s

/-- `ACK` (R104): opaque to the block, which takes the byte as it takes any other. -/
def execAck (s : State) : Answer :=
  whenReady s (rxByte wire.ack s)

/-- `NACK` (R104): opaque to the block. -/
def execNack (s : State) : Answer :=
  whenReady s (rxByte wire.nack s)

/-- `BROADCAST` (R61): the address byte every parser accepts (R177). -/
def execBroadcast (s : State) : Answer :=
  whenReady s (rxByte wire.broadcast s)

/-- `MASTER` (R61): no special treatment by the parser (R177). -/
def execMaster (s : State) : Answer :=
  whenReady s (rxByte wire.master s)

end Sys2Proof.Machine
end

