-- ==== Sys2Proof/Machine/Dispatch.lean ====
section
/-! DEFINITION. One arm for each row of the table. -/

namespace Sys2Proof.Machine

def exec (i : Instr) (s : State) : Host.Outcome State Fault Refusal :=
  match i with
  | .rx b => Sys2Proof.Machine.execRx b s
  | .qRead => Sys2Proof.Machine.execQRead s
  | .txSend a c p => Sys2Proof.Machine.execTxSend a c p s
  | .txSend1 a c b => Sys2Proof.Machine.execTxSend1 a c b s
  | .crc8Update acc b => Sys2Proof.Machine.execCrc8Update acc b s
  | .crc8Calc bytes => Sys2Proof.Machine.execCrc8Calc bytes s
  | .escape data => Sys2Proof.Machine.execEscape data s
  | .reset => Sys2Proof.Machine.execReset s
  | .qPush cmd payload => Sys2Proof.Machine.execQPush cmd payload s
  | .rxDelim => Sys2Proof.Machine.execRxDelim s
  | .rxIdle b => Sys2Proof.Machine.execRxIdle b s
  | .rxUnesc b => Sys2Proof.Machine.execRxUnesc b s
  | .rxEsc => Sys2Proof.Machine.execRxEsc s
  | .rxData b => Sys2Proof.Machine.execRxData b s
  | .rxAddr d => Sys2Proof.Machine.execRxAddr d s
  | .rxCmd d => Sys2Proof.Machine.execRxCmd d s
  | .rxLenLo d => Sys2Proof.Machine.execRxLenLo d s
  | .rxLenHi d => Sys2Proof.Machine.execRxLenHi d s
  | .rxPayload d => Sys2Proof.Machine.execRxPayload d s
  | .rxChecksum d => Sys2Proof.Machine.execRxChecksum d s
  | .frame a c p => Sys2Proof.Machine.execFrame a c p s
  | .packet a c p => Sys2Proof.Machine.execPacket a c p s
  | .ack => Sys2Proof.Machine.execAck s
  | .nack => Sys2Proof.Machine.execNack s
  | .broadcast => Sys2Proof.Machine.execBroadcast s
  | .master => Sys2Proof.Machine.execMaster s
  | .evNone => Sys2Proof.Machine.execEvNone s
  | .evFrameOk => Sys2Proof.Machine.execEvFrameOk s
  | .evResync => Sys2Proof.Machine.execEvResync s
  | .evAddrSkip => Sys2Proof.Machine.execEvAddrSkip s
  | .evSizeViolation => Sys2Proof.Machine.execEvSizeViolation s
  | .evCrcFail => Sys2Proof.Machine.execEvCrcFail s
  | .evQueueFull => Sys2Proof.Machine.execEvQueueFull s

end Sys2Proof.Machine
end

