-- ==== Sys2Proof/Machine/Ports.lean ====
section
/-! DEFINITION. What reaches the block at its ports (spec/00_scope R10): which rows are operations there, and which are
names for bytes that arrive at port RX. -/

namespace Sys2Proof.Machine

/-- The eight operations an agent can perform at a port (R10); the other rows are not reachable from one (R107). -/
def portOperation : Instr → Bool
  | .rx _ | .qRead | .txSend _ _ _ | .txSend1 _ _ _ | .crc8Update _ _ | .crc8Calc _ | .escape _ | .reset => true
  | .qPush _ _ | .rxDelim | .rxIdle _ | .rxUnesc _ | .rxEsc | .rxData _ => false
  | .rxAddr _ | .rxCmd _ | .rxLenLo _ | .rxLenHi _ | .rxPayload _ | .rxChecksum _ => false
  | .frame _ _ _ | .packet _ _ _ | .ack | .nack | .broadcast | .master => false
  | .evNone | .evFrameOk | .evResync | .evAddrSkip | .evSizeViolation | .evCrcFail | .evQueueFull => false

/-- The raw bytes whose arrival at port RX a row names (R99, R93, R104, R61), if it names any. A row of the data level
(R176) names the raw byte that is its data byte, where that byte is taken as it is; after a marker its data byte comes
from another raw byte, and the row alone names none. `Q.PUSH` is performed only inside `RX` (R10, R211), and an event
code is what comes out of an `RX` (R261): neither arrives (log 10). -/
def arrivingBytes (p : Parser) : Instr → Option (List Byte)
  | .rxDelim => some [wire.delim]
  | .rxIdle b | .rxUnesc b | .rxData b => some [b]
  | .rxEsc => some [wire.esc]
  | .rxAddr d | .rxCmd d | .rxLenLo d | .rxLenHi d | .rxPayload d | .rxChecksum d =>
    if selectsData p d then some [d] else none
  | .frame a c payload => some (frame a c payload)
  | .packet a c payload => some (stuff (packet a c payload))
  | .ack => some [wire.ack]
  | .nack => some [wire.nack]
  | .broadcast => some [wire.broadcast]
  | .master => some [wire.master]
  | .rx _ | .qRead | .txSend _ _ _ | .txSend1 _ _ _ | .crc8Update _ _ | .crc8Calc _ | .escape _ | .reset => none
  | .qPush _ _ => none
  | .evNone | .evFrameOk | .evResync | .evAddrSkip | .evSizeViolation | .evCrcFail | .evQueueFull => none

/-- Whether an agent can have a row performed: an operation at a port, or the arrival of bytes at port RX (R10). -/
def reachesPort (p : Parser) (i : Instr) : Bool :=
  portOperation i || (arrivingBytes p i).isSome

end Sys2Proof.Machine
end

