-- ==== Sys2Proof/Machine/Step.lean ====
section
/-! DEFINITION. One step: the next operation of the trace (spec/00_scope R10, R11). -/

namespace Sys2Proof.Machine

/-- Takes the word at the front of the trace and performs it, if it names an operation at a port or what arrives at port
RX; what no port reaches, `Q.PUSH` above all, is refused (R10, R211; log 10). With no operation offered the block stays as
it is; the output of the last operation is not held (R264, R275). Bytes that are no word are refused by name (log 2). -/
def step (s : State) : Host.Outcome State Fault Refusal :=
  match s.trace with
  | [] => finish .nothing s
  | b :: bs =>
    match decode (b :: bs) with
    | .ok (i, rest) => if reachesPort s.p i then exec i { s with trace := rest } else .refused .notAtPort
    | .error why => .refused (.undecodable why)

/-- `s` with a table word as the next operation of its trace (log 1). -/
def State.withFetchWord (s : State) (nbits w : Nat) : State :=
  { s with trace := tableWord nbits w ++ s.trace }

end Sys2Proof.Machine
end

