-- ==== Sys2Proof/Safety.lean ====
section
/-! DEFINITION. What a safe state is (spec/10_state R45), and the notions the statements are written in: the GF(2)
polynomials of spec/41_crc8 R151, the transition table of spec/42 R186 and the abstract queue of spec/10_state R40. -/

namespace Sys2Proof.Machine

/-- Every per-frame register is clear: what `frame_clear` (R172) leaves. -/
structure Parser.Cleared (p : Parser) : Prop where
  lenPhase : p.lenPhase = false
  addr : p.addr = 0x00#8
  cmd : p.cmd = 0x00#8
  len : p.len = 0x0000#16
  cnt : p.cnt = 0#16
  crc : p.crc = 0x00#8
  rxCk : p.rxCk = 0x00#8
  esc : p.esc = false

/-- The invariants of R45 that hold from the first `RESET` on, in its order, and what R39 and R172 add to them. -/
structure State.Live (s : State) : Prop where
  /-- R45 item 1: the idle state is canonical. -/
  idleCleared : s.p.st = .waitStart → s.p.Cleared
  /-- R45 item 2. -/
  escInFrame : s.p.esc = true → s.p.st ≠ .waitStart
  /-- R45 item 3. -/
  phaseInLen : s.p.lenPhase = true → s.p.st = .readLen
  /-- R45 item 4. -/
  payloadRoom : s.p.st = .readPayload →
    1 ≤ s.p.len.toNat ∧ s.p.len.toNat ≤ s.params.maxPayload ∧ s.p.cnt.toNat < s.p.len.toNat
  /-- R45 item 5. -/
  checksumDone : s.p.st = .readChecksum → s.p.cnt = s.p.len ∧ s.p.len.toNat ≤ s.params.maxPayload
  /-- R45 item 6. -/
  countEarly : s.p.st = .readAddr ∨ s.p.st = .readCmd ∨ s.p.st = .readLen → s.p.cnt = 0#16
  /-- R45 item 7, first half. -/
  countBound : s.q.count ≤ s.params.queueCapacity
  /-- R45 item 7, second half. -/
  tailOfHead : s.q.tail = (s.q.head + s.q.count) % s.params.queueCapacity
  /-- R39: `Q.head` is an index of the array. -/
  headBound : s.q.head < s.params.queueCapacity
  /-- R45 item 8. -/
  entriesBound : ∀ e ∈ s.items, e.payload.length ≤ s.params.maxPayload
  /-- R30 with R172: nothing has been consumed since the delimiter. -/
  crcFresh : s.p.st = .readAddr → s.p.crc = 0x00#8

/-- The invariant every step keeps: the parameters are admitted (R7), the arrays have their sizes (R60), and from the
first `RESET` on R45 holds. Before it the registers are undefined (R251). -/
structure State.Inv (s : State) : Prop where
  params : s.params.Wf
  paySize : s.p.pay.length = s.params.maxPayload
  slotSize : s.q.slots.length = s.params.queueCapacity
  live : s.ready = true → s.Live

/-- The operations that are valid before the first `RESET` (R251): the pure ones and `RESET`. -/
def validBeforeReset : Instr → Bool
  | .crc8Update _ _ | .crc8Calc _ | .escape _ | .reset => true
  | .rx _ | .qRead | .txSend _ _ _ | .txSend1 _ _ _ => false
  | .qPush _ _ | .rxDelim | .rxIdle _ | .rxUnesc _ | .rxEsc | .rxData _ => false
  | .rxAddr _ | .rxCmd _ | .rxLenLo _ | .rxLenHi _ | .rxPayload _ | .rxChecksum _ => false
  | .frame _ _ _ | .packet _ _ _ | .ack | .nack | .broadcast | .master => false
  | .evNone | .evFrameOk | .evResync | .evAddrSkip | .evSizeViolation | .evCrcFail | .evQueueFull => false

/-- The rows that never touch the parser: everything but what arrives at port RX, and `RESET` (R23, R75, R213). -/
def leavesParser : Instr → Bool
  | .qRead | .txSend _ _ _ | .txSend1 _ _ _ | .crc8Update _ _ | .crc8Calc _ | .escape _ | .qPush _ _ => true
  | .evNone | .evFrameOk | .evResync | .evAddrSkip | .evSizeViolation | .evCrcFail | .evQueueFull => true
  | .rx _ | .reset | .rxDelim | .rxIdle _ | .rxUnesc _ | .rxEsc | .rxData _ => false
  | .rxAddr _ | .rxCmd _ | .rxLenLo _ | .rxLenHi _ | .rxPayload _ | .rxChecksum _ => false
  | .frame _ _ _ | .packet _ _ _ | .ack | .nack | .broadcast | .master => false

/-- The rows that never touch the queue: everything but a byte that can complete a frame, the two queue operations, and
`RESET` (R75, R210). -/
def leavesQueue : Instr → Bool
  | .txSend _ _ _ | .txSend1 _ _ _ | .crc8Update _ _ | .crc8Calc _ | .escape _ => true
  | .evNone | .evFrameOk | .evResync | .evAddrSkip | .evSizeViolation | .evCrcFail | .evQueueFull => true
  | .rxDelim | .rxIdle _ | .rxEsc | .rxAddr _ | .rxCmd _ | .rxLenLo _ | .rxLenHi _ | .rxPayload _ => true
  | .rx _ | .qRead | .reset | .qPush _ _ | .rxUnesc _ | .rxData _ | .rxChecksum _ => false
  | .frame _ _ _ | .packet _ _ _ | .ack | .nack | .broadcast | .master => false

/-- The rows that emit on SINK (R236). -/
def emitsOnSink : Instr → Bool
  | .txSend _ _ _ | .txSend1 _ _ _ => true
  | .rx _ | .qRead | .crc8Update _ _ | .crc8Calc _ | .escape _ | .reset => false
  | .qPush _ _ | .rxDelim | .rxIdle _ | .rxUnesc _ | .rxEsc | .rxData _ => false
  | .rxAddr _ | .rxCmd _ | .rxLenLo _ | .rxLenHi _ | .rxPayload _ | .rxChecksum _ => false
  | .frame _ _ _ | .packet _ _ _ | .ack | .nack | .broadcast | .master => false
  | .evNone | .evFrameOk | .evResync | .evAddrSkip | .evSizeViolation | .evCrcFail | .evQueueFull => false

/-- The data byte a raw byte other than the delimiter yields in a frame, if it yields one (R96). -/
def dataOf (esc : Bool) (b : Byte) : Option Byte :=
  if esc then some (b ^^^ 0x20#8) else if b = 0xAB#8 then none else some b

/-- The transition table of R186, one line a row: from the state `s` the raw byte `b` leads `P.st` to `to` with the
event `e`. -/
inductive Transition (s : State) (b : Byte) : PState → Event → Prop where
  | delimInFrame : b = 0xAA#8 → s.p.st ≠ .waitStart → Transition s b .readAddr .evResync
  | delimIdle : b = 0xAA#8 → s.p.st = .waitStart → Transition s b .readAddr .evNone
  | ignored : b ≠ 0xAA#8 → s.p.st = .waitStart → Transition s b .waitStart .evNone
  | marker : b ≠ 0xAA#8 → s.p.st ≠ .waitStart → dataOf s.p.esc b = none → Transition s b s.p.st .evNone
  | addrMatch (d : Byte) : b ≠ 0xAA#8 → s.p.st = .readAddr → dataOf s.p.esc b = some d →
      d = s.params.myAddr ∨ d = 0x00#8 → Transition s b .readCmd .evNone
  | addrOther (d : Byte) : b ≠ 0xAA#8 → s.p.st = .readAddr → dataOf s.p.esc b = some d →
      d ≠ s.params.myAddr → d ≠ 0x00#8 → Transition s b .waitStart .evAddrSkip
  | command (d : Byte) : b ≠ 0xAA#8 → s.p.st = .readCmd → dataOf s.p.esc b = some d →
      Transition s b .readLen .evNone
  | lenLow (d : Byte) : b ≠ 0xAA#8 → s.p.st = .readLen → s.p.lenPhase = false → dataOf s.p.esc b = some d →
      Transition s b .readLen .evNone
  | lenZero (d : Byte) : b ≠ 0xAA#8 → s.p.st = .readLen → s.p.lenPhase = true → dataOf s.p.esc b = some d →
      256 * d.toNat + s.p.len.toNat % 256 = 0 → Transition s b .readChecksum .evNone
  | lenInRange (d : Byte) : b ≠ 0xAA#8 → s.p.st = .readLen → s.p.lenPhase = true → dataOf s.p.esc b = some d →
      1 ≤ 256 * d.toNat + s.p.len.toNat % 256 → 256 * d.toNat + s.p.len.toNat % 256 ≤ s.params.maxPayload →
      Transition s b .readPayload .evNone
  | lenTooLong (d : Byte) : b ≠ 0xAA#8 → s.p.st = .readLen → s.p.lenPhase = true → dataOf s.p.esc b = some d →
      s.params.maxPayload < 256 * d.toNat + s.p.len.toNat % 256 → Transition s b .waitStart .evSizeViolation
  | payloadMore (d : Byte) : b ≠ 0xAA#8 → s.p.st = .readPayload → dataOf s.p.esc b = some d →
      s.p.cnt.toNat + 1 < s.p.len.toNat → Transition s b .readPayload .evNone
  | payloadLast (d : Byte) : b ≠ 0xAA#8 → s.p.st = .readPayload → dataOf s.p.esc b = some d →
      s.p.cnt.toNat + 1 = s.p.len.toNat → Transition s b .readChecksum .evNone
  | checksumOk (d : Byte) : b ≠ 0xAA#8 → s.p.st = .readChecksum → dataOf s.p.esc b = some d →
      d = s.p.crc → s.q.count ≠ s.params.queueCapacity → Transition s b .waitStart .evFrameOk
  | checksumFull (d : Byte) : b ≠ 0xAA#8 → s.p.st = .readChecksum → dataOf s.p.esc b = some d →
      d = s.p.crc → s.q.count = s.params.queueCapacity → Transition s b .waitStart .evQueueFull
  | checksumBad (d : Byte) : b ≠ 0xAA#8 → s.p.st = .readChecksum → dataOf s.p.esc b = some d →
      d ≠ s.p.crc → Transition s b .waitStart .evCrcFail

/-- Two parsers agree on every register and on the payload bytes that are readable (R29). -/
structure Parser.Agree (p q : Parser) : Prop where
  st : p.st = q.st
  lenPhase : p.lenPhase = q.lenPhase
  addr : p.addr = q.addr
  cmd : p.cmd = q.cmd
  len : p.len = q.len
  cnt : p.cnt = q.cnt
  pay : p.pay.take p.cnt.toNat = q.pay.take q.cnt.toNat
  crc : p.crc = q.crc
  rxCk : p.rxCk = q.rxCk
  esc : p.esc = q.esc

/-- The operations of the FIFO, for the abstract view of R40. -/
inductive QueueOp where
  /-- `Q.PUSH e`. -/
  | push (e : Entry)
  /-- `Q.READ`. -/
  | read
  deriving DecidableEq, Repr

/-- What an operation of the FIFO answers. -/
inductive QueueAnswer where
  /-- Whether a pushed entry was accepted. -/
  | accepted (ok : Bool)
  /-- What a read returned. -/
  | entry (e : Option Entry)
  deriving DecidableEq, Repr

/-- A run of FIFO operations on the registers, with the answers in order. -/
def Queue.run (capacity : Nat) : List QueueOp → Queue → Queue × List QueueAnswer
  | [], q => (q, [])
  | .push e :: rest, q =>
    ((Queue.run capacity rest (q.push capacity e).1).1,
      .accepted (q.push capacity e).2 :: (Queue.run capacity rest (q.push capacity e).1).2)
  | .read :: rest, q =>
    ((Queue.run capacity rest (q.read capacity).1).1,
      .entry (q.read capacity).2 :: (Queue.run capacity rest (q.read capacity).1).2)

/-- The same run on the abstract view (R211, R213): a bounded list, newest at the end. -/
def runItems (capacity : Nat) : List QueueOp → List Entry → List Entry × List QueueAnswer
  | [], items => (items, [])
  | .push e :: rest, items =>
    if items.length = capacity then
      ((runItems capacity rest items).1, .accepted false :: (runItems capacity rest items).2)
    else
      ((runItems capacity rest (items ++ [e])).1, .accepted true :: (runItems capacity rest (items ++ [e])).2)
  | .read :: rest, [] =>
    ((runItems capacity rest []).1, .entry none :: (runItems capacity rest []).2)
  | .read :: rest, e :: items =>
    ((runItems capacity rest items).1, .entry (some e) :: (runItems capacity rest items).2)

/-- The polynomial of a byte (R151): bit `i` is the coefficient of `x^i`. -/
noncomputable def bytePoly (b : Byte) : Polynomial (ZMod 2) :=
  ∑ i ∈ Finset.range 8, if b.getLsbD i then Polynomial.X ^ i else 0

/-- The polynomial of a byte list (R151): most significant bit of the first byte first. -/
noncomputable def listPoly : List Byte → Polynomial (ZMod 2)
  | [] => 0
  | b :: rest => bytePoly b * Polynomial.X ^ (8 * rest.length) + listPoly rest

/-- `G(x) = x^8 + x^2 + x + 1` (R151). -/
noncomputable def generator : Polynomial (ZMod 2) :=
  Polynomial.X ^ 8 + Polynomial.X ^ 2 + Polynomial.X + 1

end Sys2Proof.Machine
end

