-- ==== Sys2Proof/Certificates/Slice0/Obligations.lean ====
section
/-! DEFINITION. The statements for the provers, from the numbered rules of spec/. A statement whose rule rests on a
decision of the spec's own (spec/92) or on a choice of the model (notes/assumptions) says so in its docstring. -/

open Sys2Proof Sys2Proof.Machine
open Host.Outcome

/-! ### Words and steps -/

/-- Decoding an encoded well-formed instruction gives it back and leaves the rest of the bytes, for every row and every
operand. The words are the model's own (log 2, on R107 and R10). -/
def Obligations.DecodeInvertsEncode : Prop :=
  ∀ (i : Instr) (rest : List Byte), i.wf = true → decode (encode i ++ rest) = .ok (i, rest)

/-- Bytes that decode are the word of a well-formed instruction and nothing else: every word has one meaning (log 2). -/
def Obligations.DecodedBytesAreTheWord : Prop :=
  ∀ (bytes : List Byte) (i : Instr) (rest : List Byte),
    decode bytes = .ok (i, rest) → i.wf = true ∧ encode i ++ rest = bytes

/-- Words of each format of R107 written out by hand: port ids of R10, the codes of R6, R99, R261 (log 2). -/
def Obligations.SampleWordsDecode : Prop :=
  decode [0x00#8, 0, 0x8A#8] = .ok (.rx 0x8A#8, []) ∧
  decode [0x01#8, 0] = .ok (.qRead, []) ∧
  decode [0x02#8, 0, 0x02#8, 0x03#8, 1, 0x01#8, 1, 0xAA#8, 0] = .ok (.txSend 0x02#8 0x03#8 [0x01#8, 0xAA#8], []) ∧
  decode [0x03#8, 0, 0x12#8, 0x34#8] = .ok (.crc8Update 0x12#8 0x34#8, []) ∧
  decode [0x05#8, 0] = .ok (.reset, []) ∧
  decode [0xAA#8, 0] = .ok (.rxDelim, []) ∧
  decode [0x07#8, 7] = .ok (.rxCmd 0x07#8, []) ∧
  decode [0xAA#8, 12, 0x02#8, 0x10#8, 0x01#8, 0x00#8, 0x55#8] = .ok (.frame 0x02#8 0x10#8 [0x55#8], []) ∧
  decode [0xEE#8, 0] = .ok (.ack, []) ∧
  decode [0x01#8, 14] = .ok (.master, []) ∧
  decode [0x02#8, 15] = .ok (.evResync, [])

/-- A step performs the instruction whose word stands at the front of the trace, on the state with that word taken off
(log 1; R10, R11), when it is an operation at a port or names bytes that arrive at port RX; any other row is refused by
name, since no port reaches it (R10, R107; log 10). -/
def Obligations.StepRunsDecodedInstruction : Prop :=
  ∀ (s : State) (i : Instr) (rest : List Byte), decode s.trace = .ok (i, rest) →
    (portOperation i = true → step s = exec i { s with trace := rest }) ∧
    (∀ bytes, arrivingBytes s.p i = some bytes → step s = exec i { s with trace := rest }) ∧
    (portOperation i = false → arrivingBytes s.p i = none → step s = refused .notAtPort)

/-- With no operation offered nothing changes and no output is held (R264, R275; log 1); bytes that are no word are
refused by name (log 2). -/
def Obligations.StepWithoutAWord : Prop :=
  ∀ s : State,
    (s.trace = [] → step s = next { s with result := .nothing }) ∧
    (∀ why, s.trace ≠ [] → decode s.trace = .error why → step s = refused (.undecodable why))

/-! ### Reset and the life of an instance -/

/-- RESET (R250) from any state, in use or not: the parser idle with every per-frame register clear, the queue empty,
the parameters, SINK and the trace as before. The values other than WaitStart and the accumulator are decision D21. -/
def Obligations.ResetGivesIdleParserAndEmptyQueue : Prop :=
  ∀ s : State, ∃ t : State, exec .reset s = next t ∧
    t.ready = true ∧ t.p.st = .waitStart ∧ t.p.Cleared ∧
    t.q.head = 0 ∧ t.q.tail = 0 ∧ t.q.count = 0 ∧ t.items = [] ∧
    t.params = s.params ∧ t.sink = s.sink ∧ t.trace = s.trace ∧ t.result = .nothing ∧
    exec .reset t = next t

/-- The table of R46 in the state after reset, for every instance: each register of the parser and of the queue, the
empty queue, the parameters (the instance's, log 3), SINK empty and no event on EV (log 6). The values other than WaitStart
and the accumulator are decision D21. -/
def Obligations.ResetStateMeetsTheTable : Prop :=
  ∀ params : Params, (State.resetWith params).p.st = .waitStart ∧ (State.resetWith params).p.Cleared ∧
    (State.resetWith params).q.head = 0 ∧ (State.resetWith params).q.tail = 0 ∧
    (State.resetWith params).q.count = 0 ∧
    (State.resetWith params).items = [] ∧ qEmpty (State.resetWith params) = true ∧
    (State.resetWith params).params = params ∧ (State.resetWith params).sink = [] ∧
    (State.resetWith params).result = .nothing

/-- The invariants of R45 hold right after reset, whatever admitted parameters the instance has. -/
def Obligations.InvariantHoldsAtReset : Prop :=
  (∀ params : Params, params.Wf → (State.resetWith params).Inv) ∧ State.reset.Inv

/-- The invariants of R45 hold after every step that completes, whatever the operation: the idle state is canonical,
the flags and the count fit the state, the queue's registers fit each other, entries fit the maximum. -/
def Obligations.StepKeepsInvariant : Prop :=
  ∀ s t : State, s.Inv → step s = next t → t.Inv

/-- Before the first RESET every operation is refused but RESET and the pure ones, which complete (R251, decision D22). -/
def Obligations.OnlyPureOperationsAndResetBeforeReset : Prop :=
  ∀ (i : Instr) (s : State), s.ready = false →
    (validBeforeReset i = false → exec i s = refused .beforeReset) ∧
    (validBeforeReset i = true → ∃ t : State, exec i s = next t)

/-! ### The rows of RX -/

/-- The delimiter (R171, R172): from every state, with the flag set or clear, the frame restarts with every per-frame
register clear. That the flag is cleared is decision D7, the event decision D10. -/
def Obligations.DelimiterRestartsFrame : Prop :=
  ∀ s : State, s.ready = true →
    exec .rxDelim s = next
      { s with
        p := { s.p with
          st := .readAddr, lenPhase := false, addr := 0x00#8, cmd := 0x00#8, len := 0x0000#16, cnt := 0#16, crc := 0x00#8,
          rxCk := 0x00#8, esc := false }
        result := .event (if s.p.st = .waitStart then .evNone else .evResync) } ∧
    exec (.rx 0xAA#8) s = exec .rxDelim s

/-- A byte outside a frame (R173): nothing changes but the output. That no event is raised is decision D9. -/
def Obligations.IdleParserIgnoresBytes : Prop :=
  ∀ (s : State) (b : Byte), s.ready = true → s.p.st = .waitStart → b ≠ 0xAA#8 →
    exec (.rxIdle b) s = next { s with result := .event .evNone } ∧
    exec (.rx b) s = exec (.rxIdle b) s

/-- The escape marker (R175): the flag is set and nothing else changes. -/
def Obligations.MarkerOnlySetsFlag : Prop :=
  ∀ s : State, s.ready = true → s.p.st ≠ .waitStart → s.p.esc = false →
    exec .rxEsc s = next { s with p := { s.p with esc := true }, result := .event .evNone } ∧
    exec (.rx 0xAB#8) s = exec .rxEsc s

/-- The byte after a marker (R174): the flag is cleared and `b ^ 0x20` goes to the row of the state; any byte but the
delimiter is taken so. -/
def Obligations.FlaggedByteIsUnmasked : Prop :=
  ∀ (s : State) (b : Byte) (row : Instr), s.ready = true → s.p.esc = true → b ≠ 0xAA#8 →
    dataRow s.p (b ^^^ 0x20#8) = some row →
    exec (.rxUnesc b) s = exec row { s with p := { s.p with esc := false } } ∧
    exec (.rx b) s = exec (.rxUnesc b) s

/-- A plain byte in a frame (R176) is the data byte as it is, and a data byte goes to the one row that R176 lists for the
state; none arises in WaitStart. -/
def Obligations.PlainByteGoesToStateRow : Prop :=
  (∀ (s : State) (b : Byte) (row : Instr), s.ready = true → s.p.esc = false → b ≠ 0xAA#8 → b ≠ 0xAB#8 →
    dataRow s.p b = some row →
    exec (.rxData b) s = exec row s ∧ exec (.rx b) s = exec (.rxData b) s) ∧
  (∀ (p : Parser) (d : Byte),
    dataRow p d =
      match p.st, p.lenPhase with
      | .waitStart, _ => none
      | .readAddr, _ => some (.rxAddr d)
      | .readCmd, _ => some (.rxCmd d)
      | .readLen, false => some (.rxLenLo d)
      | .readLen, true => some (.rxLenHi d)
      | .readPayload, _ => some (.rxPayload d)
      | .readChecksum, _ => some (.rxChecksum d))

/-- The address byte (R177): matched against MY_ADDR and 0x00 after unescaping. What `idle` clears on a mismatch is
decision D8 (R187). -/
def Obligations.AddressByteFilters : Prop :=
  ∀ (s : State) (d : Byte), s.ready = true → s.p.st = .readAddr →
    exec (.rxAddr d) s = next
      (if d = s.params.myAddr ∨ d = 0x00#8 then
        { s with
          p := { s.p with crc := crc8Update s.p.crc d, addr := d, st := .readCmd }
          result := .event .evNone }
      else
        { s with
          p := { s.p with
            st := .waitStart, lenPhase := false, addr := 0x00#8, cmd := 0x00#8, len := 0x0000#16, cnt := 0#16, crc := 0x00#8,
            rxCk := 0x00#8, esc := false }
          result := .event .evAddrSkip })

/-- The command byte (R178): stored, fed to the CRC, every value accepted. -/
def Obligations.CommandByteIsStored : Prop :=
  ∀ (s : State) (d : Byte), s.ready = true → s.p.st = .readCmd →
    exec (.rxCmd d) s = next
      { s with
        p := { s.p with cmd := d, crc := crc8Update s.p.crc d, st := .readLen }
        result := .event .evNone }

/-- The low length byte (R180): no check is made on it. -/
def Obligations.LowLengthByteIsStored : Prop :=
  ∀ (s : State) (d : Byte), s.ready = true → s.p.st = .readLen → s.p.lenPhase = false →
    ∃ len : Half, len.toNat = 256 * (s.p.len.toNat / 256) + d.toNat ∧
      exec (.rxLenLo d) s = next
        { s with
          p := { s.p with crc := crc8Update s.p.crc d, len := len, lenPhase := true }
          result := .event .evNone }

/-- The high length byte (R181): the length is the little-endian value of the two bytes (R97); zero goes to the checksum,
a length up to the maximum to the payload, anything above is a size violation, which leaves the parser idle (what
`idle` clears is decision D8). -/
def Obligations.HighLengthByteDecides : Prop :=
  ∀ (s : State) (d : Byte), s.ready = true → s.p.st = .readLen → s.p.lenPhase = true →
    ∃ len : Half, len.toNat = 256 * d.toNat + s.p.len.toNat % 256 ∧
      exec (.rxLenHi d) s = next
        (if len.toNat = 0 then
          { s with
            p := { s.p with crc := crc8Update s.p.crc d, len := len, lenPhase := false, st := .readChecksum }
            result := .event .evNone }
        else if len.toNat ≤ s.params.maxPayload then
          { s with
            p := { s.p with crc := crc8Update s.p.crc d, len := len, lenPhase := false, st := .readPayload }
            result := .event .evNone }
        else
          { s with
            p := { s.p with
              st := .waitStart, lenPhase := false, addr := 0x00#8, cmd := 0x00#8, len := 0x0000#16, cnt := 0#16, crc := 0x00#8,
              rxCk := 0x00#8, esc := false }
            result := .event .evSizeViolation })

/-- A payload byte (R183): fed to the CRC, stored at the count; the byte that brings the count to the declared length
moves the parser on. -/
def Obligations.PayloadByteIsAppended : Prop :=
  ∀ (s : State) (d : Byte), s.ready = true → s.p.st = .readPayload →
    s.p.cnt.toNat < s.p.len.toNat → s.p.cnt.toNat < s.params.maxPayload →
    exec (.rxPayload d) s = next
      { s with
        p := { s.p with
          crc := crc8Update s.p.crc d, pay := s.p.pay.set s.p.cnt.toNat d, cnt := s.p.cnt + 1,
          st := if s.p.cnt.toNat + 1 = s.p.len.toNat then .readChecksum else .readPayload }
        result := .event .evNone }

/-- The checksum byte (R185): compared, not fed to the CRC; a good frame is enqueued unless the queue is full; the parser
is idle in each case (what `idle` clears is decision D8). The checksum is judged before the queue (R265). -/
def Obligations.ChecksumByteCompletesFrame : Prop :=
  ∀ (s : State) (d : Byte), s.ready = true → s.p.st = .readChecksum →
    exec (.rxChecksum d) s = next
      { s with
        p := { s.p with
          st := .waitStart, lenPhase := false, addr := 0x00#8, cmd := 0x00#8, len := 0x0000#16, cnt := 0#16, crc := 0x00#8,
          rxCk := 0x00#8, esc := false }
        q := if d = s.p.crc ∧ s.q.count ≠ s.params.queueCapacity then
            { s.q with
              slots := s.q.slots.set s.q.tail ⟨s.p.cmd, s.p.pay.take s.p.cnt.toNat⟩
              tail := (s.q.tail + 1) % s.params.queueCapacity
              count := s.q.count + 1 }
          else s.q
        result := .event
          (if d ≠ s.p.crc then .evCrcFail
          else if s.q.count = s.params.queueCapacity then .evQueueFull else .evFrameOk) }

/-- RX takes every byte in every state of an instance in use (R170, R189): it completes with one event code, as the row
its class selects (R99) does; so RX.UNESC and RX.DATA complete wherever they are selected, and so does the row a data byte
selects (R176). -/
def Obligations.ReceiveAlwaysCompletes : Prop :=
  ∀ (s : State) (b : Byte), s.Inv → s.ready = true →
    (∃ (t : State) (e : Event), exec (.rx b) s = next t ∧ t.result = .event e ∧ exec (classRow s.p b) s = next t) ∧
    (b ≠ 0xAA#8 → s.p.st ≠ .waitStart → s.p.esc = true →
      ∃ (t : State) (e : Event), exec (.rxUnesc b) s = next t ∧ t.result = .event e) ∧
    (b ≠ 0xAA#8 → b ≠ 0xAB#8 → s.p.st ≠ .waitStart → s.p.esc = false →
      ∃ (t : State) (e : Event), exec (.rxData b) s = next t ∧ t.result = .event e) ∧
    (∀ row : Instr, dataRow s.p b = some row → ∃ (t : State) (e : Event), exec row s = next t ∧ t.result = .event e)

/-- Every RX moves P.st and reports as one line of the table of R186, and there are no other transitions. -/
def Obligations.ReceiveFollowsTransitionTable : Prop :=
  ∀ (s t : State) (b : Byte), s.Inv → s.ready = true → exec (.rx b) s = next t →
    ∃ e : Event, t.result = .event e ∧ Transition s b t.p.st e

/-- The five conditions (R261, R266): the frame is discarded, the queue is as it was, and the parser is idle, or at the
start of a frame for a resynchronisation, with every per-frame register clear. -/
def Obligations.ConditionsLeaveParserClean : Prop :=
  ∀ (s t : State) (b : Byte) (e : Event), s.Inv → s.ready = true → exec (.rx b) s = next t → t.result = .event e →
    e ≠ .evNone → e ≠ .evFrameOk →
    t.q = s.q ∧ t.p.Cleared ∧ t.p.st = (if e = .evResync then .readAddr else .waitStart)

/-! ### Frames on the wire -/

/-- The frame of an admitted command for this parser, or broadcast, fed to a parser in any state with room in its queue
appends exactly that command and leaves the parser idle; every byte but the last reports nothing, but for the delimiter
when it interrupts a frame (R190 Round-trip, R237). FRAME is the arrival of those bytes (log 11). -/
def Obligations.GoodFrameIsEnqueued : Prop :=
  ∀ (s : State) (a c : Byte) (p : List Byte), s.Inv → s.ready = true →
    a = s.params.myAddr ∨ a = 0x00#8 → p.length ≤ s.params.maxPayload → s.q.count ≠ s.params.queueCapacity →
    ∃ t : State, exec (.frame a c p) s = next t ∧
      t.items = s.items ++ [⟨c, p⟩] ∧ t.p.st = .waitStart ∧ t.p.Cleared ∧
      t.params = s.params ∧ t.ready = true ∧ t.sink = s.sink ∧ t.trace = s.trace ∧
      t.q.head = s.q.head ∧
      t.result = .events
        ((if s.p.st = .waitStart then .evNone else .evResync) ::
          (List.replicate ((frame a c p).length - 2) .evNone ++ [.evFrameOk]))

/-- The same frame at a full queue is the one that is lost: the queue keeps what it holds and the parser is clean (R212,
R185). -/
def Obligations.GoodFrameAtFullQueueIsDropped : Prop :=
  ∀ (s : State) (a c : Byte) (p : List Byte), s.Inv → s.ready = true →
    a = s.params.myAddr ∨ a = 0x00#8 → p.length ≤ s.params.maxPayload → s.q.count = s.params.queueCapacity →
    ∃ t : State, exec (.frame a c p) s = next t ∧
      t.q = s.q ∧ t.p.st = .waitStart ∧ t.p.Cleared ∧
      t.params = s.params ∧ t.ready = true ∧ t.sink = s.sink ∧ t.trace = s.trace ∧
      t.result = .events
        ((if s.p.st = .waitStart then .evNone else .evResync) ::
          (List.replicate ((frame a c p).length - 2) .evNone ++ [.evQueueFull]))

/-- A frame for a foreign address reports the skip at the last raw byte of its address (the second one where the address is
escaped) and nothing else, one event a raw byte, whatever its length, and enqueues nothing (R190 Address filtering, R177,
R265 item 2, R95). -/
def Obligations.ForeignFrameIsSkipped : Prop :=
  ∀ (s : State) (a c : Byte) (p : List Byte), s.Inv → s.ready = true →
    a ≠ s.params.myAddr → a ≠ 0x00#8 → p.length ≤ 65535 →
    ∃ (t : State) (pre post : List Event), exec (.frame a c p) s = next t ∧
      t.q = s.q ∧ t.p.st = .waitStart ∧ t.p.Cleared ∧
      t.params = s.params ∧ t.ready = true ∧ t.sink = s.sink ∧ t.trace = s.trace ∧
      t.result = .events
        ((if s.p.st = .waitStart then .evNone else .evResync) :: (pre ++ .evAddrSkip :: post)) ∧
      (∀ e ∈ pre ++ post, e = .evNone) ∧
      pre.length + 1 = (escapeUnit a).length ∧
      1 + pre.length + 1 + post.length = (frame a c p).length

/-- A frame whose declared length exceeds the maximum is a size violation, not an overrun: reported once, at the last raw
byte of its length field, one event a raw byte, nothing enqueued, the parser idle at its end (R181, R182, R307). -/
def Obligations.OverlongFrameIsRejected : Prop :=
  ∀ (s : State) (a c : Byte) (p : List Byte), s.Inv → s.ready = true →
    a = s.params.myAddr ∨ a = 0x00#8 → s.params.maxPayload < p.length → p.length ≤ 65535 →
    ∃ (t : State) (pre post : List Event), exec (.frame a c p) s = next t ∧
      t.q = s.q ∧ t.p.st = .waitStart ∧ t.p.Cleared ∧
      t.params = s.params ∧ t.ready = true ∧ t.sink = s.sink ∧ t.trace = s.trace ∧
      t.result = .events
        ((if s.p.st = .waitStart then .evNone else .evResync) :: (pre ++ .evSizeViolation :: post)) ∧
      (∀ e ∈ pre ++ post, e = .evNone) ∧
      pre.length + 1 = (stuff [a, c, lenLow p.length, lenHigh p.length]).length ∧
      1 + pre.length + 1 + post.length = (frame a c p).length

/-- PACKET completes in every state of an instance in use, with one event per wire byte, and after a delimiter it is the
rest of the frame (R93; log 11). -/
def Obligations.PacketIsFrameWithoutDelimiter : Prop :=
  ∀ (s : State) (a c : Byte) (p : List Byte), s.Inv → s.ready = true → p.length ≤ 65535 →
    (∃ (t : State) (es : List Event), exec (.packet a c p) s = next t ∧ t.result = .events es ∧
      es.length = (stuff (packet a c p)).length) ∧
    (∃ (t u : State) (e : Event) (es : List Event), exec .rxDelim s = next t ∧ t.result = .event e ∧
      exec (.packet a c p) t = next u ∧ u.result = .events es ∧
      exec (.frame a c p) s = next { u with result := .events (e :: es) })

/-- A packet in WaitStart, with no delimiter before it, passes without any effect (R173, R95). -/
def Obligations.PacketWithoutDelimiterIsIgnored : Prop :=
  ∀ (s : State) (a c : Byte) (p : List Byte), s.ready = true → s.p.st = .waitStart → p.length ≤ 65535 →
    exec (.packet a c p) s = next
      { s with result := .events (List.replicate (stuff (packet a c p)).length .evNone) }

/-- What came before a delimiter has no influence on how the following bytes are parsed (R189 item 1): two instances with
the same parameters and the same queue, whatever their parsers, report the same and end with parsers that agree, but for
the event of the delimiter itself. -/
def Obligations.DelimiterForgetsThePast : Prop :=
  ∀ (s s' t t' : State) (bytes : List Byte), s.Inv → s'.Inv → s.ready = true → s'.ready = true →
    s.params = s'.params → s.q = s'.q →
    rxs (0xAA#8 :: bytes) s = next t → rxs (0xAA#8 :: bytes) s' = next t' →
    t.p.Agree t'.p ∧ t.q = t'.q ∧ t.result.eventList.tail = t'.result.eventList.tail

/-- While a frame is in progress the accumulator is the checksum of the data bytes consumed since its delimiter (R30),
and the flag is set exactly when the raw bytes end in an unpaired marker (R135): exactly then a further raw byte 0x20 is
unmasked to the data byte 0x00. -/
def Obligations.AccumulatorIsChecksumOfConsumedBytes : Prop :=
  ∀ (s t : State) (raw : List Byte), s.Inv → s.ready = true → 0xAA#8 ∉ raw →
    rxs (0xAA#8 :: raw) s = next t → t.p.st ≠ .waitStart →
    t.p.crc = crc8 (unescape raw) ∧ (t.p.esc = true ↔ unescape (raw ++ [0x20#8]) = unescape raw ++ [0x00#8])

/-! ### The CRC8 engine -/

/-- CRC8.UPDATE and CRC8.CALC (R150, R152): each completes in every state, even before RESET, with its value as the output
and nothing else changed; one update is eight rounds of shift and exclusive-or on `acc ^ b`. The loop body is the
spec's general knowledge (R150). -/
def Obligations.CrcOperationsArePure : Prop :=
  ∀ (s : State) (acc b : Byte) (bytes : List Byte),
    let round : Byte → Byte := fun a => if a.toNat < 128 then a <<< 1 else (a <<< 1) ^^^ 0x07#8
    let update : Byte → Byte → Byte := fun x y => round^[8] (x ^^^ y)
    exec (.crc8Update acc b) s = next { s with result := .byte (update acc b) } ∧
    exec (.crc8Calc bytes) s = next { s with result := .byte (bytes.foldl update 0x00#8) }

/-- The one-shot checksum and the incremental update agree (R153): the checksum of a longer list is one update of the
checksum of the shorter, and of nothing it is 0x00. -/
def Obligations.OneShotAgreesWithIncremental : Prop :=
  ∀ (s : State) (m : List Byte) (b : Byte), ∃ x : Byte,
    exec (.crc8Calc m) s = next { s with result := .byte x } ∧
    exec (.crc8Calc (m ++ [b])) s = exec (.crc8Update x b) s ∧
    exec (.crc8Calc []) s = next { s with result := .byte 0x00#8 }

/-- The checksum is the remainder of `M(x) * x^8` divided by `G(x) = x^8 + x^2 + x + 1` over GF(2), and one update the
remainder of `(A(x) + B(x)) * x^8` (R151, which states the equivalence from general knowledge). -/
def Obligations.ChecksumIsPolynomialRemainder : Prop :=
  (∀ m : List Byte, bytePoly (crc8 m) = (listPoly m * Polynomial.X ^ 8) %ₘ generator) ∧
  (∀ acc b : Byte, bytePoly (crc8Update acc b) = ((bytePoly acc + bytePoly b) * Polynomial.X ^ 8) %ₘ generator)

/-- The engine is linear (R156). -/
def Obligations.ChecksumIsLinear : Prop :=
  (∀ a a' b b' : Byte, crc8Update (a ^^^ a') (b ^^^ b') = crc8Update a b ^^^ crc8Update a' b') ∧
  (∀ m m' : List Byte, m.length = m'.length → crc8 (List.zipWith (· ^^^ ·) m m') = crc8 m ^^^ crc8 m')

/-- Changing exactly one byte of a list always changes its checksum (R156, the consequence of the bijection). -/
def Obligations.SingleByteChangeIsDetected : Prop :=
  ∀ (pre post : List Byte) (b b' : Byte), b ≠ b' → crc8 (pre ++ b :: post) ≠ crc8 (pre ++ b' :: post)

/-- A list followed by its own checksum has checksum 0x00 (R152, corner cases). -/
def Obligations.ChecksumResidueIsZero : Prop :=
  ∀ m : List Byte, crc8 (m ++ [crc8 m]) = 0x00#8

/-! ### The framing codec -/

/-- ESCAPE (R131, R133) completes in every state with nothing changed but its output: the escaped form of the longest
run of whole units, from the first byte on, that fits MAX_ESCAPED, and `truncated` exactly when a byte was left out.
Where the cut falls is decision D15. -/
def Obligations.EscapeCutsBeforeFirstUnitThatDoesNotFit : Prop :=
  ∀ (s : State) (data : List Byte), ∃ (out : List Byte) (truncated : Bool) (k : Nat),
    exec (.escape data) s = next { s with result := .escaped out truncated } ∧
    k ≤ data.length ∧ out = stuff (data.take k) ∧ out.length ≤ s.params.maxEscaped ∧
    (truncated = true ↔ k < data.length) ∧
    (k < data.length → s.params.maxEscaped < (stuff (data.take (k + 1))).length) ∧
    (truncated = false ↔ (stuff data).length ≤ s.params.maxEscaped)

/-- Byte-stuffing (R94): exactly the two reserved bytes are replaced, by the marker and the byte under the mask, every
other byte stands for itself; and every byte of the packet is subject to it, the checksum too. -/
def Obligations.StuffingReplacesReservedBytes : Prop :=
  stuff [] = [] ∧
  (∀ (v : Byte) (rest : List Byte),
    stuff (v :: rest) =
      if v = 0xAA#8 then 0xAB#8 :: 0x8A#8 :: stuff rest
      else if v = 0xAB#8 then 0xAB#8 :: 0x8B#8 :: stuff rest
      else v :: stuff rest) ∧
  (∀ (a c : Byte) (p : List Byte), frame a c p = 0xAA#8 :: stuff (packet a c p))

/-- Escaped output holds no delimiter and no marker but before 0x8A or 0x8B, never at its end (R134 a, b), and is longer
than its input by the number of reserved bytes (R132). -/
def Obligations.EscapedOutputHasNoDelimiter : Prop :=
  ∀ data : List Byte, 0xAA#8 ∉ stuff data ∧
    (∀ pre post : List Byte, stuff data = pre ++ post →
      (∀ v rest, post = v :: rest → v = 0xAB#8 → pre.getLast? ≠ some 0xAB#8 →
        ∃ x more, rest = x :: more ∧ (x = 0x8A#8 ∨ x = 0x8B#8))) ∧
    (stuff data).length = data.length + data.countP (fun v => v = 0xAA#8 ∨ v = 0xAB#8)

/-- Escape then unescape gives the original bytes (R134 e); escaping is byte by byte (c) and injective (d). -/
def Obligations.UnescapeInvertsEscape : Prop :=
  (∀ data : List Byte, unescape (stuff data) = data) ∧
  (∀ a b : List Byte, stuff (a ++ b) = stuff a ++ stuff b) ∧
  (∀ a b : List Byte, stuff a = stuff b → a = b)

/-! ### The serializer -/

/-- TX.SEND of a payload up to the maximum (R231 to R233, R235) completes: the delimiter and the whole escaped packet go
to SINK, and nothing else changes but the output. -/
def Obligations.SendEmitsTheWholeFrame : Prop :=
  ∀ (s : State) (a c : Byte) (p : List Byte), s.params.Wf → s.ready = true → p.length ≤ s.params.maxPayload →
    ∃ body : List Byte,
      body = [a, c, BitVec.ofNat 8 (p.length % 256), BitVec.ofNat 8 (p.length / 256)] ++ p ∧
      exec (.txSend a c p) s = next
        { s with sink := s.sink ++ 0xAA#8 :: stuff (body ++ [crc8 body]), result := .sent }

/-- TX.SEND of a payload above the maximum has no meaning and is refused (R234, decision D16). -/
def Obligations.SendRefusesLongPayload : Prop :=
  ∀ (s : State) (a c : Byte) (p : List Byte), s.ready = true → s.params.maxPayload < p.length →
    exec (.txSend a c p) s = refused .payloadTooLong

/-- TX.SEND1 is TX.SEND with the one byte as payload and is never refused (R240, decision D18). -/
def Obligations.SendOneByteEmitsItsFrame : Prop :=
  ∀ (s : State) (a c b : Byte), s.params.Wf → s.ready = true →
    exec (.txSend1 a c b) s = exec (.txSend a c [b]) s ∧
    exec (.txSend1 a c b) s = next
      { s with
        sink := s.sink ++ 0xAA#8 :: stuff [a, c, 0x01#8, 0x00#8, b, crc8 [a, c, 0x01#8, 0x00#8, b]]
        result := .sent }

/-- Every frame (R237): its first byte is the delimiter and no other is; its length lies between `L + 6` and
`2 * (L + 5) + 1`; unescaping what follows the delimiter gives the packet, whose checksum is 0x00. -/
def Obligations.FrameShape : Prop :=
  ∀ (a c : Byte) (p : List Byte), ∃ rest : List Byte,
    frame a c p = 0xAA#8 :: rest ∧ 0xAA#8 ∉ rest ∧
    p.length + 6 ≤ (frame a c p).length ∧ (frame a c p).length ≤ 2 * (p.length + 5) + 1 ∧
    unescape rest = packet a c p ∧ crc8 (packet a c p) = 0x00#8

/-- The round trip of R190 (LOOPBACK of R106): what TX.SEND puts on SINK, fed back to RX of the same instance or of
another one, is decoded as the one command that was sent. That SINK is a stream in the state from which the bytes are taken
is the model's choice (log 7), and so is that another instance is a second state that shares nothing with the first
(log 17). -/
def Obligations.LoopbackDeliversTheCommand : Prop :=
  (∀ (s : State) (a c : Byte) (p : List Byte), s.Inv → s.ready = true →
    a = s.params.myAddr ∨ a = 0x00#8 → p.length ≤ s.params.maxPayload → s.q.count ≠ s.params.queueCapacity →
    ∃ t : State, loopback a c p s = next t ∧ t.items = s.items ++ [⟨c, p⟩] ∧ t.p.st = .waitStart ∧
      t.sink = s.sink ++ frame a c p ∧ t.result.eventList.getLast? = some .evFrameOk) ∧
  (∀ (s r : State) (a c : Byte) (p : List Byte), s.Inv → s.ready = true → r.Inv → r.ready = true →
    a = r.params.myAddr ∨ a = 0x00#8 → p.length ≤ s.params.maxPayload → p.length ≤ r.params.maxPayload →
    r.q.count ≠ r.params.queueCapacity →
    ∃ t : State, loopbackTo a c p s r = next t ∧ t.items = r.items ++ [⟨c, p⟩] ∧ t.p.st = .waitStart ∧
      t.sink = r.sink ∧ t.result.eventList.getLast? = some .evFrameOk)

/-! ### The command FIFO -/

/-- Q.PUSH (R211). That the row by itself has its effect exactly in ReadChecksum with P.rx_ck equal to P.crc, and for the
command and payload the parser holds (R185), is the model's deduction (log 8). `rxCk = crc` stands for the matching checksum
that R211 asks for; it also holds before any checksum byte when the accumulator is 0x00, where no step performs the row
(log 10). On the registers and on the abstract view an entry goes into the slot at the tail and is appended at the end, and
the answer is true; at a full queue it is dropped, nothing changes, and the answer is false. The RX of a matching checksum
byte performs that push, and turns its answer into the event (R185). -/
def Obligations.PushAppendsUnlessFull : Prop :=
  ∀ s : State, s.Inv → s.ready = true →
    (∀ (cmd : Byte) (payload : List Byte) (t : State), exec (.qPush cmd payload) s = next t →
      s.p.st = .readChecksum ∧ s.p.rxCk = s.p.crc ∧ cmd = s.p.cmd ∧ payload = s.p.pay.take s.p.cnt.toNat) ∧
    (s.p.st = .readChecksum → s.p.rxCk = s.p.crc → ∃ q : Queue,
      exec (.qPush s.p.cmd (s.p.pay.take s.p.cnt.toNat)) s = next
        { s with q := q, result := .accepted (decide (s.q.count ≠ s.params.queueCapacity)) } ∧
      q = (if s.q.count = s.params.queueCapacity then s.q
        else { s.q with
          slots := s.q.slots.set s.q.tail ⟨s.p.cmd, s.p.pay.take s.p.cnt.toNat⟩
          tail := (s.q.tail + 1) % s.params.queueCapacity
          count := s.q.count + 1 }) ∧
      q.items s.params.queueCapacity =
        (if s.items.length = s.params.queueCapacity then s.items
        else s.items ++ [⟨s.p.cmd, s.p.pay.take s.p.cnt.toNat⟩])) ∧
    (s.p.st = .readChecksum → ∃ (t u : State) (ok : Bool),
      exec (.rxChecksum s.p.crc) s = next t ∧
      exec (.qPush s.p.cmd (s.p.pay.take s.p.cnt.toNat)) { s with p := { s.p with rxCk := s.p.crc } } = next u ∧
      u.result = .accepted ok ∧ t.q = u.q ∧ t.result = .event (if ok = true then .evFrameOk else .evQueueFull))

/-- Q.READ on the abstract view (R213): the oldest entry is taken off and returned; an empty queue answers `none` and is
unchanged (R214, decision D12). -/
def Obligations.ReadTakesTheOldest : Prop :=
  ∀ s : State, s.Inv → s.ready = true →
    ∃ q : Queue,
      exec .qRead s = next { s with q := q, result := .entry s.items.head? } ∧
      q.items s.params.queueCapacity = s.items.tail ∧
      (s.items = [] → q = s.q)

/-- The circular buffer is a bounded FIFO list (R40, R215): any run of pushes and reads on the registers gives the answers
and ends with the entries that the same run gives on the list. -/
def Obligations.CircularBufferIsBoundedFifo : Prop :=
  ∀ (s : State) (ops : List QueueOp), s.Inv → s.ready = true →
    (Queue.run s.params.queueCapacity ops s.q).2 = (runItems s.params.queueCapacity ops s.items).2 ∧
    (Queue.run s.params.queueCapacity ops s.q).1.items s.params.queueCapacity =
      (runItems s.params.queueCapacity ops s.items).1

/-- The status outputs (R42) are the size of the abstract queue, which never exceeds the capacity (R215). -/
def Obligations.StatusOutputsCountTheEntries : Prop :=
  ∀ s : State, s.Inv → s.ready = true →
    qCount s = s.items.length ∧ (qEmpty s = true ↔ s.items = []) ∧
    (qFull s = true ↔ s.items.length = s.params.queueCapacity) ∧ s.items.length ≤ s.params.queueCapacity

/-! ### Codes -/

/-- The meaning of an event code is its emission on EV, which changes nothing else (R13 `emit`, R262; log 13); a step
performs it only inside an RX (log 10). The numbers are decision D10. -/
def Obligations.EventCodesAreEmitted : Prop :=
  ∀ s : State, s.ready = true →
    ∀ row ∈ [(Instr.evNone, Event.evNone, 0), (.evFrameOk, .evFrameOk, 1), (.evResync, .evResync, 2),
        (.evAddrSkip, .evAddrSkip, 3), (.evSizeViolation, .evSizeViolation, 4), (.evCrcFail, .evCrcFail, 5),
        (.evQueueFull, .evQueueFull, 6)],
      exec row.1 s = next { s with result := .event row.2.1 } ∧ row.2.1.code.toNat = row.2.2

/-- ACK and NACK are opaque (R104): each is the arrival of its byte, stored in the command field like any command, fed to
the CRC (log 12); outside a frame it passes without effect. -/
def Obligations.CommandCodesAreOpaque : Prop :=
  ∀ s : State, s.ready = true →
    ∀ row ∈ [(Instr.ack, 0xEE#8), (.nack, 0xFF#8)],
      exec row.1 s = exec (.rx row.2) s ∧
      (s.p.st = .readCmd → s.p.esc = false → exec row.1 s = next
        { s with
          p := { s.p with cmd := row.2, crc := crc8Update s.p.crc row.2, st := .readLen }
          result := .event .evNone }) ∧
      (s.p.st = .waitStart → exec row.1 s = next { s with result := .event .evNone })

/-- The address codes (R61, R177): 0x00 is accepted by every parser, 0x01 only where MY_ADDR is 0x01; each is the arrival
of its byte (log 12); outside a frame it passes without effect. -/
def Obligations.AddressCodesAreMatched : Prop :=
  ∀ s : State, s.ready = true →
    (exec .broadcast s = exec (.rx 0x00#8) s ∧ exec .master s = exec (.rx 0x01#8) s) ∧
    (s.p.st = .readAddr → s.p.esc = false →
      exec .broadcast s = next
        { s with
          p := { s.p with crc := crc8Update s.p.crc 0x00#8, addr := 0x00#8, st := .readCmd }
          result := .event .evNone } ∧
      ∃ t : State, exec .master s = next t ∧
        (s.params.myAddr = 0x01#8 → t.p.st = .readCmd ∧ t.result = .event .evNone) ∧
        (s.params.myAddr ≠ 0x01#8 → t.p.st = .waitStart ∧ t.result = .event .evAddrSkip)) ∧
    (s.p.st = .waitStart →
      exec .broadcast s = next { s with result := .event .evNone } ∧
      exec .master s = next { s with result := .event .evNone })

/-! ### What operations leave alone, and where they stop -/

/-- No operation changes a parameter, MY_ADDR among them (R35, R36, R252; decisions D5, D23, D24), and none takes an
instance out of use or reaches the operations still to come. -/
def Obligations.ParametersNeverChange : Prop :=
  ∀ (i : Instr) (s t : State), exec i s = next t →
    t.params = s.params ∧ t.trace = s.trace ∧ (s.ready = true → t.ready = true)

/-- Receive half, queue and transmit half stay apart (R22, R75): only what arrives at RX, and RESET, writes the parser;
only a byte that can complete a frame, the queue operations and RESET write the queue; only TX.SEND and TX.SEND1 emit,
and they append (R236). -/
def Obligations.HalvesStayApart : Prop :=
  ∀ (i : Instr) (s t : State), exec i s = next t →
    (leavesParser i = true → t.p = s.p) ∧ (leavesQueue i = true → t.q = s.q) ∧
    (emitsOnSink i = false → t.sink = s.sink) ∧ s.sink <+: t.sink

/-- Where an operation of an instance in use has no meaning it is refused by name: a row that its state or its byte does
not select (R14, R99, R107; log 8), a push anywhere but at its point inside an RX (R211; log 8) or of an entry longer than the
maximum (R211), a length the 16-bit field cannot say (R234), and the defensive bound in ReadPayload (R184, spec/93 U3;
log 14). -/
def Obligations.StopsAreByName : Prop :=
  ∀ s : State, s.ready = true →
    (∀ b : Byte, b = 0xAA#8 ∨ s.p.st ≠ .waitStart → exec (.rxIdle b) s = refused (.rowNotSelected "RX.IDLE")) ∧
    (∀ b : Byte, b = 0xAA#8 ∨ s.p.st = .waitStart ∨ s.p.esc = false →
      exec (.rxUnesc b) s = refused (.rowNotSelected "RX.UNESC")) ∧
    (s.p.st = .waitStart ∨ s.p.esc = true → exec .rxEsc s = refused (.rowNotSelected "RX.ESC")) ∧
    (∀ b : Byte, b = 0xAA#8 ∨ b = 0xAB#8 ∨ s.p.st = .waitStart ∨ s.p.esc = true →
      exec (.rxData b) s = refused (.rowNotSelected "RX.DATA")) ∧
    (∀ d : Byte, s.p.st ≠ .readAddr → exec (.rxAddr d) s = refused (.rowNotSelected "RX.ADDR")) ∧
    (∀ d : Byte, s.p.st ≠ .readCmd → exec (.rxCmd d) s = refused (.rowNotSelected "RX.CMD")) ∧
    (∀ d : Byte, s.p.st ≠ .readLen ∨ s.p.lenPhase = true →
      exec (.rxLenLo d) s = refused (.rowNotSelected "RX.LEN_LO")) ∧
    (∀ d : Byte, s.p.st ≠ .readLen ∨ s.p.lenPhase = false →
      exec (.rxLenHi d) s = refused (.rowNotSelected "RX.LEN_HI")) ∧
    (∀ d : Byte, s.p.st ≠ .readPayload → exec (.rxPayload d) s = refused (.rowNotSelected "RX.PAYLOAD")) ∧
    (∀ d : Byte, s.p.st ≠ .readChecksum → exec (.rxChecksum d) s = refused (.rowNotSelected "RX.CHECKSUM")) ∧
    (∀ d : Byte, s.p.st = .readPayload → s.p.len.toNat ≤ s.p.cnt.toNat ∨ s.params.maxPayload ≤ s.p.cnt.toNat →
      exec (.rxPayload d) s = refused .payloadBound) ∧
    (∀ (cmd : Byte) (payload : List Byte), s.params.maxPayload < payload.length →
      exec (.qPush cmd payload) s = refused .payloadTooLong) ∧
    (∀ (cmd : Byte) (payload : List Byte), payload.length ≤ s.params.maxPayload →
      s.p.st ≠ .readChecksum ∨ s.p.rxCk ≠ s.p.crc ∨ cmd ≠ s.p.cmd ∨ payload ≠ s.p.pay.take s.p.cnt.toNat →
      exec (.qPush cmd payload) s = refused (.rowNotSelected "Q.PUSH")) ∧
    (∀ (a c : Byte) (p : List Byte), 65535 < p.length →
      exec (.frame a c p) s = refused .lengthNotExpressible ∧
      exec (.packet a c p) s = refused .lengthNotExpressible)

/-! ### What reaches the block -/

/-- The unit of execution is an operation at a port (R10): a step that completes and takes a word off the trace is one of
the eight port operations, the RX of one arriving byte, or a run of RX (RXS of R106) of the bytes that the row names. It is
never Q.PUSH, which is performed only inside RX (decision D14), and never an event code, which only comes out of an RX. -/
def Obligations.EveryStepIsAtAPort : Prop :=
  ∀ s t : State, s.trace ≠ [] → step s = next t →
    ∃ (i : Instr) (rest : List Byte), decode s.trace = .ok (i, rest) ∧
      (∀ cmd payload, i ≠ .qPush cmd payload) ∧
      i ∉ [.evNone, .evFrameOk, .evResync, .evAddrSkip, .evSizeViolation, .evCrcFail, .evQueueFull] ∧
      ((portOperation i = true ∧ exec i { s with trace := rest } = next t) ∨
        (∃ b, arrivingBytes s.p i = some [b] ∧ exec (.rx b) { s with trace := rest } = next t) ∨
        (∃ bytes, arrivingBytes s.p i = some bytes ∧ s.ready = true ∧ rxs bytes { s with trace := rest } = next t))

/-- Only the parser enqueues (R210, decision D14): a port operation leaves the entries as they were, or is Q.READ and takes
the oldest off, or is RESET and drops them, or is the RX whose data byte is the matching checksum in ReadChecksum with room
in the queue, and appends the command the parser holds. -/
def Obligations.OnlyChecksumByteEnqueues : Prop :=
  ∀ (i : Instr) (s t : State), s.Inv → s.ready = true → portOperation i = true → exec i s = next t →
    t.items = s.items ∨
    (i = .qRead ∧ t.items = s.items.tail) ∨
    (i = .reset ∧ t.items = []) ∨
    (∃ b : Byte, i = .rx b ∧ b ≠ 0xAA#8 ∧ s.p.st = .readChecksum ∧ dataOf s.p.esc b = some s.p.crc ∧
      s.q.count ≠ s.params.queueCapacity ∧ t.items = s.items ++ [⟨s.p.cmd, s.p.pay.take s.p.cnt.toNat⟩])
end

