-- ==== Sys2Proof/Laws/State.lean ====
section
/-! SUPPORT. One lemma for each field of each record update, true by `rfl`, so that no later proof unfolds one. -/

namespace Sys2Proof.Machine

@[simp] theorem frameClear_st (p : Parser) : (frameClear p).st = p.st := rfl
@[simp] theorem frameClear_lenPhase (p : Parser) : (frameClear p).lenPhase = false := rfl
@[simp] theorem frameClear_addr (p : Parser) : (frameClear p).addr = 0x00#8 := rfl
@[simp] theorem frameClear_cmd (p : Parser) : (frameClear p).cmd = 0x00#8 := rfl
@[simp] theorem frameClear_len (p : Parser) : (frameClear p).len = 0x0000#16 := rfl
@[simp] theorem frameClear_cnt (p : Parser) : (frameClear p).cnt = 0#16 := rfl
@[simp] theorem frameClear_pay (p : Parser) : (frameClear p).pay = p.pay := rfl
@[simp] theorem frameClear_crc (p : Parser) : (frameClear p).crc = 0x00#8 := rfl
@[simp] theorem frameClear_rxCk (p : Parser) : (frameClear p).rxCk = 0x00#8 := rfl
@[simp] theorem frameClear_esc (p : Parser) : (frameClear p).esc = false := rfl

@[simp] theorem idle_st (p : Parser) : (idle p).st = .waitStart := rfl
@[simp] theorem idle_lenPhase (p : Parser) : (idle p).lenPhase = false := rfl
@[simp] theorem idle_addr (p : Parser) : (idle p).addr = 0x00#8 := rfl
@[simp] theorem idle_cmd (p : Parser) : (idle p).cmd = 0x00#8 := rfl
@[simp] theorem idle_len (p : Parser) : (idle p).len = 0x0000#16 := rfl
@[simp] theorem idle_cnt (p : Parser) : (idle p).cnt = 0#16 := rfl
@[simp] theorem idle_pay (p : Parser) : (idle p).pay = p.pay := rfl
@[simp] theorem idle_crc (p : Parser) : (idle p).crc = 0x00#8 := rfl
@[simp] theorem idle_rxCk (p : Parser) : (idle p).rxCk = 0x00#8 := rfl
@[simp] theorem idle_esc (p : Parser) : (idle p).esc = false := rfl

@[simp] theorem frameStart_st (p : Parser) : (frameStart p).st = .readAddr := rfl
@[simp] theorem frameStart_lenPhase (p : Parser) : (frameStart p).lenPhase = false := rfl
@[simp] theorem frameStart_addr (p : Parser) : (frameStart p).addr = 0x00#8 := rfl
@[simp] theorem frameStart_cmd (p : Parser) : (frameStart p).cmd = 0x00#8 := rfl
@[simp] theorem frameStart_len (p : Parser) : (frameStart p).len = 0x0000#16 := rfl
@[simp] theorem frameStart_cnt (p : Parser) : (frameStart p).cnt = 0#16 := rfl
@[simp] theorem frameStart_pay (p : Parser) : (frameStart p).pay = p.pay := rfl
@[simp] theorem frameStart_crc (p : Parser) : (frameStart p).crc = 0x00#8 := rfl
@[simp] theorem frameStart_rxCk (p : Parser) : (frameStart p).rxCk = 0x00#8 := rfl
@[simp] theorem frameStart_esc (p : Parser) : (frameStart p).esc = false := rfl

@[simp] theorem sinkBytes_params (bytes : List Byte) (s : State) : (sinkBytes bytes s).params = s.params := rfl
@[simp] theorem sinkBytes_ready (bytes : List Byte) (s : State) : (sinkBytes bytes s).ready = s.ready := rfl
@[simp] theorem sinkBytes_p (bytes : List Byte) (s : State) : (sinkBytes bytes s).p = s.p := rfl
@[simp] theorem sinkBytes_q (bytes : List Byte) (s : State) : (sinkBytes bytes s).q = s.q := rfl
@[simp] theorem sinkBytes_sink (bytes : List Byte) (s : State) : (sinkBytes bytes s).sink = s.sink ++ bytes := rfl
@[simp] theorem sinkBytes_result (bytes : List Byte) (s : State) : (sinkBytes bytes s).result = s.result := rfl
@[simp] theorem sinkBytes_trace (bytes : List Byte) (s : State) : (sinkBytes bytes s).trace = s.trace := rfl

@[simp] theorem Queue.clear_slots (q : Queue) : q.clear.slots = q.slots := rfl
@[simp] theorem Queue.clear_head (q : Queue) : q.clear.head = 0 := rfl
@[simp] theorem Queue.clear_tail (q : Queue) : q.clear.tail = 0 := rfl
@[simp] theorem Queue.clear_count (q : Queue) : q.clear.count = 0 := rfl

@[simp] theorem resetWith_params (params : Params) : (State.resetWith params).params = params := rfl
@[simp] theorem resetWith_ready (params : Params) : (State.resetWith params).ready = true := rfl
@[simp] theorem resetWith_p (params : Params) : (State.resetWith params).p = Parser.reset params := rfl
@[simp] theorem resetWith_q (params : Params) : (State.resetWith params).q = Queue.reset params := rfl
@[simp] theorem resetWith_sink (params : Params) : (State.resetWith params).sink = [] := rfl
@[simp] theorem resetWith_result (params : Params) : (State.resetWith params).result = .nothing := rfl
@[simp] theorem resetWith_trace (params : Params) : (State.resetWith params).trace = [] := rfl

/-- What `frame_clear` leaves is clear (R172). -/
theorem frameClear_cleared (p : Parser) : (frameClear p).Cleared :=
  ⟨rfl, rfl, rfl, rfl, rfl, rfl, rfl, rfl⟩

/-- The idle parser is clear (R187). -/
theorem idle_cleared (p : Parser) : (idle p).Cleared :=
  ⟨rfl, rfl, rfl, rfl, rfl, rfl, rfl, rfl⟩

/-- The parser at the start of a frame is clear (R171). -/
theorem frameStart_cleared (p : Parser) : (frameStart p).Cleared :=
  ⟨rfl, rfl, rfl, rfl, rfl, rfl, rfl, rfl⟩

/-- The parser after reset is clear (R46). -/
theorem Parser.reset_cleared (params : Params) : (Parser.reset params).Cleared :=
  ⟨rfl, rfl, rfl, rfl, rfl, rfl, rfl, rfl⟩

end Sys2Proof.Machine
end

