-- ==== Sys2Proof/Laws/Ops.lean ====
section
/-! SUPPORT. What each shared operation can answer, said once, and what the FIFO's registers do to `Q.items`. -/

namespace Sys2Proof.Machine
open Host.Outcome

/-! ### Guards and outcomes -/

@[simp] theorem finish_eq (r : Result) (s : State) : finish r s = next { s with result := r } := rfl

@[simp] theorem report_eq (e : Event) (s : State) : report e s = next { s with result := .event e } := rfl

@[simp] theorem andThen_next (s : State) (k : State → Answer) : andThen (next s) k = k s := rfl

/-- A sequence completes exactly when both operations do. -/
theorem andThen_eq_next {o : Answer} {k : State → Answer} {t : State} :
    andThen o k = next t ↔ ∃ u, o = next u ∧ k u = next t := by
  cases o <;> simp [andThen]

@[simp] theorem whenReady_true {s : State} (h : s.ready = true) (o : Answer) : whenReady s o = o := by
  simp [whenReady, h]

@[simp] theorem whenReady_false {s : State} (h : s.ready = false) (o : Answer) :
    whenReady s o = refused .beforeReset := by
  simp [whenReady, h]

/-- A guarded operation completes exactly on an instance in use on which it completes (R251). -/
theorem whenReady_eq_next {s t : State} {o : Answer} : whenReady s o = next t ↔ s.ready = true ∧ o = next t := by
  unfold whenReady; split <;> simp_all

@[simp] theorem whenSelected_eq (c : Bool) (row : String) (o : Answer) :
    whenSelected c row o = if c = true then o else refused (.rowNotSelected row) := rfl

/-- A row completes exactly when it is selected and its step completes (R14). -/
theorem whenSelected_eq_next {c : Bool} {row : String} {t : State} {o : Answer} :
    whenSelected c row o = next t ↔ c = true ∧ o = next t := by
  cases c <;> simp

/-! ### The FIFO -/

theorem Queue.push_full {capacity : Nat} {q : Queue} (e : Entry) (h : q.count = capacity) :
    q.push capacity e = (q, false) := by
  simp [Queue.push, h]

theorem Queue.push_room {capacity : Nat} {q : Queue} (e : Entry) (h : q.count ≠ capacity) :
    q.push capacity e =
      ({ q with slots := q.slots.set q.tail e, tail := (q.tail + 1) % capacity, count := q.count + 1 }, true) := by
  simp [Queue.push, h]

theorem Queue.read_empty {capacity : Nat} {q : Queue} (h : q.count = 0) : q.read capacity = (q, none) := by
  simp [Queue.read, h]

theorem Queue.read_some {capacity : Nat} {q : Queue} (h : q.count ≠ 0) :
    q.read capacity =
      ({ q with head := (q.head + 1) % capacity, count := q.count - 1 },
        some (q.slots.getD q.head Entry.unwritten)) := by
  simp [Queue.read, h]

@[simp] theorem Queue.items_length (capacity : Nat) (q : Queue) : (q.items capacity).length = q.count := by
  simp [Queue.items]

@[simp] theorem Queue.items_clear (capacity : Nat) (q : Queue) : q.clear.items capacity = [] := rfl

@[simp] theorem Queue.items_reset (capacity : Nat) (params : Params) : (Queue.reset params).items capacity = [] := rfl

/-- The queue's registers fit each other and the array (R39, R45 item 7). -/
structure Queue.Sound (capacity : Nat) (q : Queue) : Prop where
  slots : q.slots.length = capacity
  head : q.head < capacity
  count : q.count ≤ capacity
  tail : q.tail = (q.head + q.count) % capacity

/-- The indices of the entries held are pairwise different, and different from the tail while there is room. -/
theorem ring_index_ne {capacity head i count : Nat} (hh : head < capacity) (hi : i < count) (hc : count < capacity) :
    (head + i) % capacity ≠ (head + count) % capacity := by
  intro h
  have h1 : (head + i) % capacity = if head + i < capacity then head + i else head + i - capacity := by
    split
    · exact Nat.mod_eq_of_lt ‹_›
    · rw [Nat.mod_eq_sub_mod (by omega), Nat.mod_eq_of_lt (by omega)]
  have h2 : (head + count) % capacity = if head + count < capacity then head + count else head + count - capacity := by
    split
    · exact Nat.mod_eq_of_lt ‹_›
    · rw [Nat.mod_eq_sub_mod (by omega), Nat.mod_eq_of_lt (by omega)]
  rw [h1, h2] at h
  split at h <;> split at h <;> omega

/-- A push into room appends on the abstract view (R211). -/
theorem Queue.items_push {capacity : Nat} {q : Queue} (hq : q.Sound capacity) (e : Entry) (h : q.count ≠ capacity) :
    (q.push capacity e).1.items capacity = q.items capacity ++ [e] := by
  have hlt : q.count < capacity := Nat.lt_of_le_of_ne hq.count h
  rw [Queue.push_room e h]
  simp only [Queue.items, List.range_succ, List.map_append, List.map_cons, List.map_nil]
  congr 1
  · apply List.map_congr_left
    intro i hi
    have hne := ring_index_ne hq.head (List.mem_range.mp hi) hlt
    simp only [List.getD_eq_getElem?_getD]
    rw [List.getElem?_set_ne (by rw [hq.tail]; exact fun h => hne h.symm)]
  · have ht : q.tail < q.slots.length := by
      rw [hq.slots, hq.tail]; exact Nat.mod_lt _ (by omega)
    simp [← hq.tail, List.getD_eq_getElem?_getD, ht]

/-- A read of a queue that holds something takes the oldest entry off the abstract view (R213). -/
theorem Queue.items_read {capacity : Nat} {q : Queue} (hq : q.Sound capacity) (h : q.count ≠ 0) :
    q.items capacity =
      q.slots.getD q.head Entry.unwritten :: (q.read capacity).1.items capacity := by
  obtain ⟨n, hn⟩ := Nat.exists_eq_succ_of_ne_zero h
  rw [Queue.read_some h]
  simp only [Queue.items, hn, Nat.succ_eq_add_one, Nat.add_sub_cancel, List.range_succ_eq_map, List.map_cons,
    List.map_map, Nat.add_zero, Nat.mod_eq_of_lt hq.head]
  congr 1
  apply List.map_congr_left
  intro i _
  simp only [Function.comp_apply]
  congr 1
  rw [Nat.mod_add_mod]
  congr 1
  omega

theorem Queue.Sound.push {capacity : Nat} {q : Queue} (hq : q.Sound capacity) (e : Entry) :
    (q.push capacity e).1.Sound capacity := by
  by_cases h : q.count = capacity
  · rw [Queue.push_full e h]; exact hq
  · have := hq.count
    rw [Queue.push_room e h]
    refine ⟨by simp [hq.slots], hq.head, by simp only; omega, ?_⟩
    simp only [hq.tail, Nat.mod_add_mod]
    congr 1

theorem Queue.Sound.read {capacity : Nat} {q : Queue} (hq : q.Sound capacity) :
    (q.read capacity).1.Sound capacity := by
  by_cases h : q.count = 0
  · rw [Queue.read_empty h]; exact hq
  · have := hq.count
    have := hq.head
    rw [Queue.read_some h]
    refine ⟨hq.slots, Nat.mod_lt _ (by omega), by simp only; omega, ?_⟩
    simp only [hq.tail, Nat.mod_add_mod]
    congr 1
    omega

/-- The invariant says that the queue is sound. -/
theorem State.Live.queueSound {s : State} (hl : s.Live) (hs : s.q.slots.length = s.params.queueCapacity) :
    s.q.Sound s.params.queueCapacity :=
  ⟨hs, hl.headBound, hl.countBound, hl.tailOfHead⟩

end Sys2Proof.Machine
end

