-- ==== Sys2Proof/Laws/Codec.lean ====
section
/-! SUPPORT. Byte-stuffing one unit at a time, and where `escape` cuts. -/

namespace Sys2Proof.Machine

@[simp] theorem stuff_nil : stuff [] = [] := rfl

theorem stuff_cons (v : Byte) (rest : List Byte) : stuff (v :: rest) = escapeUnit v ++ stuff rest := by
  simp [stuff]

theorem stuff_split (a b : List Byte) : stuff (a ++ b) = stuff a ++ stuff b := by
  simp [stuff]

/-- The three forms of a unit (R94). -/
theorem escapeUnit_cases (v : Byte) :
    (v = 0xAA#8 ∧ escapeUnit v = [0xAB#8, 0x8A#8]) ∨ (v = 0xAB#8 ∧ escapeUnit v = [0xAB#8, 0x8B#8]) ∨
      (v ≠ 0xAA#8 ∧ v ≠ 0xAB#8 ∧ escapeUnit v = [v]) := by
  by_cases h1 : v = 0xAA#8
  · subst h1; exact .inl ⟨rfl, rfl⟩
  · by_cases h2 : v = 0xAB#8
    · subst h2; exact .inr (.inl ⟨rfl, rfl⟩)
    · exact .inr (.inr ⟨h1, h2, by simp [escapeUnit, h1, h2]⟩)

theorem escapeUnit_length (v : Byte) : 1 ≤ (escapeUnit v).length ∧ (escapeUnit v).length ≤ 2 := by
  rcases escapeUnit_cases v with ⟨-, h⟩ | ⟨-, h⟩ | ⟨-, -, h⟩ <;> simp [h]

/-- A unit unescapes to its byte, whatever follows (R135). -/
theorem unescape_escapeUnit (v : Byte) (rest : List Byte) :
    unescape (escapeUnit v ++ rest) = v :: unescape rest := by
  rcases escapeUnit_cases v with ⟨h, e⟩ | ⟨h, e⟩ | ⟨-, h, e⟩
  · rw [e, h]; simp [unescape, unmask]
  · rw [e, h]; simp [unescape, unmask]
  · rw [e]; cases rest <;> simp [unescape, h]

theorem stuff_take_le (data : List Byte) (k : Nat) : (stuff (data.take k)).length ≤ (stuff data).length := by
  conv_rhs => rw [← List.take_append_drop k data, stuff_split]
  simp

/-- The loop of `escape` stops before the first unit that does not fit, and nowhere else (R133). -/
theorem escapeInto_cut (m : Nat) (data : List Byte) : ∀ out : List Byte, out.length ≤ m →
    ∃ k, k ≤ data.length ∧
      (escapeInto m out data).1 = out ++ stuff (data.take k) ∧ (escapeInto m out data).1.length ≤ m ∧
      ((escapeInto m out data).2 = true ↔ k < data.length) ∧
      (k < data.length → m < (out ++ stuff (data.take (k + 1))).length) := by
  induction data with
  | nil => intro out h; exact ⟨0, by simp [escapeInto, h]⟩
  | cons v rest ih =>
    intro out h
    by_cases hc : out.length + (escapeUnit v).length > m
    · refine ⟨0, by simp, ?_⟩
      simp only [escapeInto, hc, if_true]
      simp [stuff, h]
      omega
    · obtain ⟨k, h1, h2, h3, h4, h5⟩ := ih (out ++ escapeUnit v) (by simp; omega)
      refine ⟨k + 1, by simp; omega, ?_⟩
      simp only [escapeInto, hc, if_false]
      refine ⟨by rw [h2]; simp [stuff], h3, by rw [h4]; simp, fun hk => ?_⟩
      simpa [stuff, List.append_assoc] using h5 (by simpa using hk)

/-- What fits is escaped whole (R235). -/
theorem escape_fits {m : Nat} {data : List Byte} (h : (stuff data).length ≤ m) :
    escape m data = (stuff data, false) := by
  obtain ⟨k, h1, h2, -, h4, h5⟩ := escapeInto_cut m data [] (by simp)
  have hk : ¬ k < data.length := fun hk => by
    have := h5 hk
    have := stuff_take_le data (k + 1)
    simp at *
    omega
  obtain rfl : k = data.length := by omega
  exact Prod.ext (by simpa [escape] using h2) (by simpa [escape] using h4)

theorem packet_length (a c : Byte) (p : List Byte) : (packet a c p).length = p.length + 5 := by
  simp [packet, packetBody]

/-- The units of a packet: the header up to the low length byte, the high one, the payload, the checksum. -/
theorem stuff_packet (a c : Byte) (p : List Byte) :
    stuff (packet a c p) = stuff [a, c, lenLow p.length] ++
      (escapeUnit (lenHigh p.length) ++ (stuff p ++ escapeUnit (crc8 (packetBody a c p)))) := by
  simp [packet, packetBody, stuff]

end Sys2Proof.Machine
end

