-- ==== Sys2Proof/Laws/Crc.lean ====
section
/-! SUPPORT. The CRC8 engine over lists and over exclusive-or, and the polynomials of its bytes. -/

namespace Sys2Proof.Machine

theorem crc8_append (m n : List Byte) : crc8 (m ++ n) = n.foldl crc8Update (crc8 m) := by
  simp [crc8, List.foldl_append]

theorem crc8_snoc (m : List Byte) (b : Byte) : crc8 (m ++ [b]) = crc8Update (crc8 m) b := by
  simp [crc8]

/-- An update depends on the exclusive-or of its operands only (R150). -/
theorem crc8Update_eq (acc b : Byte) : crc8Update acc b = crc8Update 0x00#8 (acc ^^^ b) := by
  simp [crc8Update]

/-- One round commutes with exclusive-or (R156). -/
theorem crc8Round_xor (a b : Byte) : crc8Round (a ^^^ b) = crc8Round a ^^^ crc8Round b := by
  simp only [crc8Round, BitVec.msb_xor, BitVec.shiftLeft_xor_distrib]
  generalize a <<< 1 = x
  generalize b <<< 1 = y
  cases a.msb <;> cases b.msb <;>
    simp only [Bool.xor_false, Bool.xor_true, Bool.not_false, Bool.not_true, if_true, if_false, reduceCtorEq]
  · ac_rfl
  · ac_rfl
  · rw [show (x ^^^ 7#8) ^^^ (y ^^^ 7#8) = (x ^^^ y) ^^^ (7#8 ^^^ 7#8) by ac_rfl]; simp

/-! ### Polynomials -/

open Polynomial

theorem bytePoly_xor (a b : Byte) : bytePoly (a ^^^ b) = bytePoly a + bytePoly b := by
  unfold bytePoly
  rw [← Finset.sum_add_distrib]
  refine Finset.sum_congr rfl fun i _ => ?_
  rw [BitVec.getLsbD_xor]
  cases a.getLsbD i <;> cases b.getLsbD i <;> simp [CharTwo.add_self_eq_zero]

theorem bytePoly_degree_lt (b : Byte) : (bytePoly b).degree < 8 := by
  refine (Polynomial.degree_sum_le _ _).trans_lt ?_
  rw [Finset.sup_lt_iff (WithBot.bot_lt_coe 8)]
  intro i hi
  split
  · rw [degree_X_pow]; exact_mod_cast Finset.mem_range.mp hi
  · rw [degree_zero]; exact WithBot.bot_lt_coe 8

theorem generator_natDegree : generator.natDegree = 8 := by
  unfold generator; compute_degree!

theorem generator_monic : generator.Monic := by
  unfold generator; monicity!

theorem listPoly_snoc (m : List Byte) (b : Byte) : listPoly (m ++ [b]) = listPoly m * X ^ 8 + bytePoly b := by
  induction m with
  | nil => simp [listPoly]
  | cons a m ih => simp only [List.cons_append, listPoly, ih, List.length_append, List.length_singleton]; ring

/-- A shift multiplies by `x`, with the bit shifted out as the coefficient of `x^8` (R151). -/
theorem bytePoly_shift (a : Byte) : bytePoly (a <<< 1) = bytePoly a * X + (if a.msb then X ^ 8 else 0) := by
  have hm : a.msb = a.getLsbD 7 := by simp [BitVec.msb_eq_getLsbD_last]
  unfold bytePoly
  rw [Finset.sum_range_succ', Finset.sum_range_succ _ 7, add_mul, Finset.sum_mul, hm, add_assoc]
  congr 1
  · refine Finset.sum_congr rfl fun i hi => ?_
    have := Finset.mem_range.mp hi
    rw [show (a <<< 1).getLsbD (i + 1) = a.getLsbD i by simp; omega]
    split <;> simp [pow_succ]
  · have : (a <<< 1).getLsbD 0 = false := by simp
    rw [this]
    cases a.getLsbD 7
    · simp
    · simp [← pow_succ, CharTwo.add_self_eq_zero]

end Sys2Proof.Machine
end

