-- ==== Sys2Proof/Laws/Parser.lean ====
section
/-! SUPPORT. What each row of the parser can do, said once: if it completes, then one of these cases holds. -/

namespace Sys2Proof.Machine
open Host.Outcome

/-- What no receive operation touches, and that it reports one event (R170, R75). -/
structure Received (s t : State) : Prop where
  params : t.params = s.params
  ready : t.ready = s.ready
  sink : t.sink = s.sink
  trace : t.trace = s.trace
  event : ∃ e, t.result = .event e

/-- Reporting after a change of the parser alone is a receive operation. -/
theorem received_report (e : Event) (s : State) (p : Parser) : Received s { s with p := p, result := .event e } :=
  ⟨rfl, rfl, rfl, rfl, _, rfl⟩

/-! ### The length field -/

theorem setLenLow_toNat (l : Half) (d : Byte) : (setLenLow l d).toNat = 256 * (l.toNat / 256) + d.toNat := by
  have := d.isLt
  have := l.isLt
  simp only [setLenLow, BitVec.toNat_append, BitVec.extractLsb'_toNat, Nat.shiftRight_eq_div_pow]
  rw [← Nat.shiftLeft_add_eq_or_of_lt d.isLt, Nat.shiftLeft_eq]
  omega

theorem setLenHigh_toNat (l : Half) (d : Byte) : (setLenHigh l d).toNat = 256 * d.toNat + l.toNat % 256 := by
  have := d.isLt
  have := l.isLt
  have h : (l.extractLsb' 0 8).toNat < 2 ^ 8 := (l.extractLsb' 0 8).isLt
  simp only [setLenHigh, BitVec.toNat_append]
  rw [← Nat.shiftLeft_add_eq_or_of_lt h, Nat.shiftLeft_eq]
  simp only [BitVec.extractLsb'_toNat, Nat.shiftRight_zero]
  omega

/-- The count does not wrap while it is below the declared length (R28). -/
theorem cnt_succ {p : Parser} (h : p.cnt.toNat < p.len.toNat) : (p.cnt + 1).toNat = p.cnt.toNat + 1 := by
  have := p.len.isLt
  rw [BitVec.toNat_add]
  simp
  omega

/-! ### The rows of the second level -/

theorem takeAddr_next {d : Byte} {s t : State} (h : takeAddr d s = next t) :
    Received s t ∧ t.q = s.q ∧
      ((addressMatches s.params d = true ∧ t.result = .event .evNone ∧
          t.p = { s.p with crc := crc8Update s.p.crc d, addr := d, st := .readCmd }) ∨
        (addressMatches s.params d = false ∧ t.result = .event .evAddrSkip ∧ t.p = idle s.p)) := by
  unfold takeAddr at h
  split at h <;> cases h
  · exact ⟨⟨rfl, rfl, rfl, rfl, _, rfl⟩, rfl, .inl ⟨‹_›, rfl, rfl⟩⟩
  · rename_i hm
    exact ⟨⟨rfl, rfl, rfl, rfl, _, rfl⟩, rfl, .inr ⟨by simpa using hm, rfl, rfl⟩⟩

theorem takeLenHigh_next {d : Byte} {s t : State} (h : takeLenHigh d s = next t) :
    Received s t ∧ t.q = s.q ∧
      ((setLenHigh s.p.len d = 0 ∧ t.result = .event .evNone ∧
          t.p = { s.p with
            crc := crc8Update s.p.crc d, len := setLenHigh s.p.len d, lenPhase := false, st := .readChecksum }) ∨
        (setLenHigh s.p.len d ≠ 0 ∧ (setLenHigh s.p.len d).toNat ≤ s.params.maxPayload ∧
          t.result = .event .evNone ∧
          t.p = { s.p with
            crc := crc8Update s.p.crc d, len := setLenHigh s.p.len d, lenPhase := false, st := .readPayload }) ∨
        (setLenHigh s.p.len d ≠ 0 ∧ s.params.maxPayload < (setLenHigh s.p.len d).toNat ∧
          t.result = .event .evSizeViolation ∧ t.p = idle s.p)) := by
  unfold takeLenHigh at h
  simp only [lengthInRange, decide_eq_true_eq] at h
  split at h
  · cases h
    exact ⟨⟨rfl, rfl, rfl, rfl, _, rfl⟩, rfl, .inl ⟨‹_›, rfl, rfl⟩⟩
  · split at h <;> cases h
    · exact ⟨⟨rfl, rfl, rfl, rfl, _, rfl⟩, rfl, .inr (.inl ⟨‹_›, ‹_›, rfl, rfl⟩)⟩
    · exact ⟨⟨rfl, rfl, rfl, rfl, _, rfl⟩, rfl, .inr (.inr ⟨‹_›, by omega, rfl, rfl⟩)⟩

theorem takePayload_next {d : Byte} {s t : State} (h : takePayload d s = next t) :
    Received s t ∧ t.q = s.q ∧ s.p.cnt.toNat < s.p.len.toNat ∧ s.p.cnt.toNat < s.params.maxPayload ∧
      t.result = .event .evNone ∧
      t.p = { s.p with
        crc := crc8Update s.p.crc d, pay := s.p.pay.set s.p.cnt.toNat d, cnt := s.p.cnt + 1,
        st := if s.p.cnt + 1 = s.p.len then .readChecksum else s.p.st } := by
  unfold takePayload payloadFits at h
  simp only [decide_eq_true_eq] at h
  split at h
  · cases h
    rename_i hb
    exact ⟨⟨rfl, rfl, rfl, rfl, _, rfl⟩, rfl, hb.1, hb.2, rfl, rfl⟩
  · cases h

theorem takeChecksum_next {d : Byte} {s t : State} (h : takeChecksum d s = next t) :
    Received s t ∧ t.p = idle s.p ∧
      ((d ≠ s.p.crc ∧ t.q = s.q ∧ t.result = .event .evCrcFail) ∨
        (d = s.p.crc ∧ s.q.count = s.params.queueCapacity ∧ t.q = s.q ∧ t.result = .event .evQueueFull) ∨
        (d = s.p.crc ∧ s.q.count ≠ s.params.queueCapacity ∧
          t.q = (s.q.push s.params.queueCapacity ⟨s.p.cmd, s.p.pay.take s.p.cnt.toNat⟩).1 ∧
          t.result = .event .evFrameOk)) := by
  unfold takeChecksum bufReadAll at h
  simp only at h
  split at h
  · rename_i hc
    by_cases hf : s.q.count = s.params.queueCapacity
    · simp only [Queue.push_full _ hf] at h
      cases h
      exact ⟨⟨rfl, rfl, rfl, rfl, _, rfl⟩, rfl, .inr (.inl ⟨hc.symm, hf, rfl, rfl⟩)⟩
    · simp only [Queue.push_room _ hf] at h
      cases h
      exact ⟨⟨rfl, rfl, rfl, rfl, _, rfl⟩, rfl, .inr (.inr ⟨hc.symm, hf, by rw [Queue.push_room _ hf], rfl⟩)⟩
  · cases h
    rename_i hc
    exact ⟨⟨rfl, rfl, rfl, rfl, _, rfl⟩, rfl, .inl ⟨fun h => hc h.symm, rfl, rfl⟩⟩

/-! ### The two levels -/

/-- The class row of a raw byte does what RX does with it (R99, R107). -/
theorem exec_classRow {b : Byte} {s : State} (h : s.ready = true) : exec (classRow s.p b) s = rxByte b s := by
  unfold classRow rxByte
  split
  · simp [exec, execRxDelim, h]
  · split
    · simp_all [exec, execRxIdle, selectsIdle]
    · split
      · simp_all [exec, execRxUnesc, selectsUnesc]
      · split
        · simp_all [exec, execRxEsc, selectsEsc]
        · simp_all [exec, execRxData, selectsData]

/-- The row of a data byte does what step 4 does with it (R176). -/
theorem exec_dataRow {s : State} {d : Byte} {row : Instr} (h : s.ready = true) (hr : dataRow s.p d = some row) :
    exec row s = dispatchData d s := by
  unfold dataRow at hr
  split at hr <;> rename_i hs
  · simp at hr
  all_goals (try split at hr) <;> (obtain rfl := Option.some.inj hr)
  all_goals
    simp_all [exec, execRxAddr, execRxCmd, execRxLenLo, execRxLenHi, execRxPayload, execRxChecksum, dispatchData]

theorem dispatchData_received {d : Byte} {s t : State} (hn : dispatchData d s = next t) : Received s t := by
  unfold dispatchData at hn
  split at hn
  · cases hn; exact ⟨rfl, rfl, rfl, rfl, _, rfl⟩
  · exact (takeAddr_next hn).1
  · cases hn; exact ⟨rfl, rfl, rfl, rfl, _, rfl⟩
  · split at hn
    · exact (takeLenHigh_next hn).1
    · cases hn; exact ⟨rfl, rfl, rfl, rfl, _, rfl⟩
  · exact (takePayload_next hn).1
  · exact (takeChecksum_next hn).1

theorem rxByte_received {b : Byte} {s t : State} (hn : rxByte b s = next t) : Received s t := by
  unfold rxByte at hn
  split at hn
  · cases hn; exact ⟨rfl, rfl, rfl, rfl, _, rfl⟩
  · split at hn
    · cases hn; exact ⟨rfl, rfl, rfl, rfl, _, rfl⟩
    · split at hn
      · have h := dispatchData_received hn
        exact ⟨h.params, h.ready, h.sink, h.trace, h.event⟩
      · split at hn
        · cases hn; exact ⟨rfl, rfl, rfl, rfl, _, rfl⟩
        · exact dispatchData_received hn

/-- Only a matching checksum in `ReadChecksum`, with room, enqueues, and what it enqueues is the command the parser holds
(R185, R210, R211). -/
theorem dispatchData_queue {d : Byte} {s t : State} (hn : dispatchData d s = next t) :
    t.q = s.q ∨ (s.p.st = .readChecksum ∧ d = s.p.crc ∧ s.q.count ≠ s.params.queueCapacity ∧
      t.q = (s.q.push s.params.queueCapacity ⟨s.p.cmd, s.p.pay.take s.p.cnt.toNat⟩).1) := by
  unfold dispatchData at hn
  split at hn
  · cases hn; exact .inl rfl
  · exact .inl (takeAddr_next hn).2.1
  · cases hn; exact .inl rfl
  · split at hn
    · exact .inl (takeLenHigh_next hn).2.1
    · cases hn; exact .inl rfl
  · exact .inl (takePayload_next hn).2.1
  · obtain ⟨-, -, ⟨-, e, -⟩ | ⟨-, -, e, -⟩ | ⟨hd, hf, e, -⟩⟩ := takeChecksum_next hn
    · exact .inl e
    · exact .inl e
    · exact .inr ⟨‹_›, hd, hf, e⟩

theorem rxByte_queue {b : Byte} {s t : State} (hn : rxByte b s = next t) :
    t.q = s.q ∨ (b ≠ 0xAA#8 ∧ s.p.st = .readChecksum ∧ dataOf s.p.esc b = some s.p.crc ∧
      s.q.count ≠ s.params.queueCapacity ∧
      t.q = (s.q.push s.params.queueCapacity ⟨s.p.cmd, s.p.pay.take s.p.cnt.toNat⟩).1) := by
  unfold rxByte at hn
  split at hn
  · cases hn; exact .inl rfl
  · rename_i hb
    split at hn
    · cases hn; exact .inl rfl
    · split at hn
      · rename_i he
        obtain h | ⟨h1, h2, h3, h4⟩ := dispatchData_queue hn
        · exact .inl h
        · exact .inr ⟨hb, h1, by rw [dataOf, if_pos he]; exact congrArg some h2, h3, h4⟩
      · split at hn
        · cases hn; exact .inl rfl
        · rename_i he hm
          obtain h | ⟨h1, h2, h3, h4⟩ := dispatchData_queue hn
          · exact .inl h
          · exact .inr ⟨hb, h1, by rw [dataOf, if_neg he, if_neg hm, h2], h3, h4⟩

/-- A data byte that leaves the frame in progress is fed to the CRC and leaves the flag alone (R176, R30). -/
theorem dispatchData_crc {d : Byte} {s t : State} (hn : dispatchData d s = next t) (hs : s.p.st ≠ .waitStart)
    (ht : t.p.st ≠ .waitStart) : t.p.crc = crc8Update s.p.crc d ∧ t.p.esc = s.p.esc := by
  unfold dispatchData at hn
  split at hn
  · contradiction
  · obtain ⟨-, -, ⟨-, -, e⟩ | ⟨-, -, e⟩⟩ := takeAddr_next hn
    · rw [e]; exact ⟨rfl, rfl⟩
    · rw [e] at ht; simp at ht
  · cases hn; exact ⟨rfl, rfl⟩
  · split at hn
    · obtain ⟨-, -, ⟨-, -, e⟩ | ⟨-, -, -, e⟩ | ⟨-, -, -, e⟩⟩ := takeLenHigh_next hn
      · rw [e]; exact ⟨rfl, rfl⟩
      · rw [e]; exact ⟨rfl, rfl⟩
      · rw [e] at ht; simp at ht
    · cases hn; exact ⟨rfl, rfl⟩
  · obtain ⟨-, -, -, -, -, e⟩ := takePayload_next hn
    rw [e]; exact ⟨rfl, rfl⟩
  · obtain ⟨-, e, -⟩ := takeChecksum_next hn
    rw [e] at ht; simp at ht

end Sys2Proof.Machine
end

