-- ==== Sys2Proof/Laws/Invariant.lean ====
section
/-! SUPPORT. `State.Inv` taken apart into the parser and the queue, and that each row of the parser keeps it and, with it,
completes. -/

namespace Sys2Proof.Machine
open Host.Outcome

/-- The parser's part of the invariant (R45 items 1 to 6). -/
structure ParserOk (params : Params) (p : Parser) : Prop where
  paySize : p.pay.length = params.maxPayload
  idleCleared : p.st = .waitStart → p.Cleared
  escInFrame : p.esc = true → p.st ≠ .waitStart
  phaseInLen : p.lenPhase = true → p.st = .readLen
  payloadRoom : p.st = .readPayload →
    1 ≤ p.len.toNat ∧ p.len.toNat ≤ params.maxPayload ∧ p.cnt.toNat < p.len.toNat
  checksumDone : p.st = .readChecksum → p.cnt = p.len ∧ p.len.toNat ≤ params.maxPayload
  countEarly : p.st = .readAddr ∨ p.st = .readCmd ∨ p.st = .readLen → p.cnt = 0#16
  crcFresh : p.st = .readAddr → p.crc = 0x00#8

/-- The queue's part of the invariant (R45 items 7 and 8). -/
structure QueueOk (params : Params) (q : Queue) : Prop where
  sound : q.Sound params.queueCapacity
  entries : ∀ e ∈ q.items params.queueCapacity, e.payload.length ≤ params.maxPayload

/-- The invariant of an instance in use is its parameters', its parser's and its queue's. -/
theorem inv_iff {s : State} (h : s.ready = true) :
    s.Inv ↔ s.params.Wf ∧ ParserOk s.params s.p ∧ QueueOk s.params s.q := by
  constructor
  · intro hi
    have hl := hi.live h
    exact ⟨hi.params,
      ⟨hi.paySize, hl.idleCleared, hl.escInFrame, hl.phaseInLen, hl.payloadRoom, hl.checksumDone, hl.countEarly,
        hl.crcFresh⟩,
      ⟨hl.queueSound hi.slotSize, hl.entriesBound⟩⟩
  · rintro ⟨hw, hp, hq⟩
    exact ⟨hw, hp.paySize, hq.sound.slots, fun _ =>
      ⟨hp.idleCleared, hp.escInFrame, hp.phaseInLen, hp.payloadRoom, hp.checksumDone, hp.countEarly,
        hq.sound.count, hq.sound.tail, hq.sound.head, hq.entries, hp.crcFresh⟩⟩

/-! ### Fields the invariant does not read -/

theorem State.Inv.setResult {s : State} (hi : s.Inv) (r : Result) : ({ s with result := r } : State).Inv :=
  ⟨hi.params, hi.paySize, hi.slotSize, fun h =>
    let l := hi.live h
    ⟨l.idleCleared, l.escInFrame, l.phaseInLen, l.payloadRoom, l.checksumDone, l.countEarly, l.countBound,
      l.tailOfHead, l.headBound, l.entriesBound, l.crcFresh⟩⟩

theorem State.Inv.setTrace {s : State} (hi : s.Inv) (trace : List Byte) : ({ s with trace := trace } : State).Inv :=
  ⟨hi.params, hi.paySize, hi.slotSize, fun h =>
    let l := hi.live h
    ⟨l.idleCleared, l.escInFrame, l.phaseInLen, l.payloadRoom, l.checksumDone, l.countEarly, l.countBound,
      l.tailOfHead, l.headBound, l.entriesBound, l.crcFresh⟩⟩

theorem State.Inv.setSink {s : State} (hi : s.Inv) (sink : List Byte) : ({ s with sink := sink } : State).Inv :=
  ⟨hi.params, hi.paySize, hi.slotSize, fun h =>
    let l := hi.live h
    ⟨l.idleCleared, l.escInFrame, l.phaseInLen, l.payloadRoom, l.checksumDone, l.countEarly, l.countBound,
      l.tailOfHead, l.headBound, l.entriesBound, l.crcFresh⟩⟩

/-! ### The parser's rows -/

theorem ParserOk.idle {params : Params} {p : Parser} (h : p.pay.length = params.maxPayload) :
    ParserOk params (idle p) :=
  ⟨h, fun _ => idle_cleared p, by simp, by simp, by simp, by simp, by simp, by simp⟩

theorem ParserOk.frameStart {params : Params} {p : Parser} (h : p.pay.length = params.maxPayload) :
    ParserOk params (frameStart p) :=
  ⟨h, by simp, by simp, by simp, by simp, by simp, by simp, by simp⟩

/-- In a frame the flag may be anything (R32, R45 item 2). -/
theorem ParserOk.setEsc {params : Params} {p : Parser} (h : ParserOk params p) (hs : p.st ≠ .waitStart) (esc : Bool) :
    ParserOk params { p with esc := esc } :=
  ⟨h.paySize, fun hh => absurd hh hs, fun _ => hs, h.phaseInLen, h.payloadRoom, h.checksumDone, h.countEarly,
    h.crcFresh⟩

theorem takeAddr_ok {d : Byte} {s t : State} (hs : s.p.st = .readAddr) (hp : ParserOk s.params s.p)
    (h : takeAddr d s = next t) : ParserOk t.params t.p := by
  obtain ⟨hr, -, ⟨-, -, e⟩ | ⟨-, -, e⟩⟩ := takeAddr_next h
  · rw [e, hr.params]
    have hc := hp.countEarly (.inl hs)
    have hph : s.p.lenPhase ≠ true := fun hh => by have := hp.phaseInLen hh; simp [hs] at this
    exact ⟨hp.paySize, by simp, by simp, by simp [hph], by simp, by simp, by simp [hc], by simp⟩
  · rw [e, hr.params]; exact .idle hp.paySize

theorem takeCmd_ok {d : Byte} {s t : State} (hs : s.p.st = .readCmd) (hp : ParserOk s.params s.p)
    (h : takeCmd d s = next t) : ParserOk t.params t.p := by
  cases h
  exact ⟨hp.paySize, by simp, by simp, by simp, by simp, by simp, by simp [hp.countEarly (.inr (.inl hs))], by simp⟩

theorem takeLenLow_ok {d : Byte} {s t : State} (hs : s.p.st = .readLen) (hp : ParserOk s.params s.p)
    (h : takeLenLow d s = next t) : ParserOk t.params t.p := by
  cases h
  exact ⟨hp.paySize, by simp [hs], by simp [hs], by simp [hs], by simp [hs], by simp [hs],
    by simp [hp.countEarly (.inr (.inr hs))], by simp [hs]⟩

theorem takeLenHigh_ok {d : Byte} {s t : State} (hs : s.p.st = .readLen) (hp : ParserOk s.params s.p)
    (h : takeLenHigh d s = next t) : ParserOk t.params t.p := by
  have hc := hp.countEarly (.inr (.inr hs))
  obtain ⟨hr, -, ⟨h0, -, e⟩ | ⟨h0, h1, -, e⟩ | ⟨-, -, -, e⟩⟩ := takeLenHigh_next h
  · rw [e, hr.params]
    exact ⟨hp.paySize, by simp, by simp, by simp, by simp, by simp [hc, h0], by simp, by simp⟩
  · rw [e, hr.params]
    have hne : (setLenHigh s.p.len d).toNat ≠ 0 := fun hh => h0 (BitVec.eq_of_toNat_eq (by simpa using hh))
    refine ⟨hp.paySize, by simp, by simp, by simp, fun _ => ?_, by simp, by simp, by simp⟩
    simp only [hc]
    refine ⟨by omega, h1, ?_⟩
    simp
    omega
  · rw [e, hr.params]; exact .idle hp.paySize

theorem takePayload_ok {d : Byte} {s t : State} (hs : s.p.st = .readPayload) (hp : ParserOk s.params s.p)
    (h : takePayload d s = next t) : ParserOk t.params t.p := by
  obtain ⟨hr, -, h1, h2, -, e⟩ := takePayload_next h
  have hc := cnt_succ h1
  have hl := hp.payloadRoom hs
  have hph : s.p.lenPhase ≠ true := fun hh => by have := hp.phaseInLen hh; simp [hs] at this
  have key : s.p.cnt + 1 = s.p.len ↔ s.p.cnt.toNat + 1 = s.p.len.toNat := by rw [← BitVec.toNat_inj, hc]
  rw [e, hr.params]
  by_cases hk : s.p.cnt + 1 = s.p.len
  · simp only [hk, if_true]
    exact ⟨by simp [hp.paySize], by simp, by simp, by simp [hph], by simp, by simp [hl], by simp, by simp⟩
  · simp only [hk, if_false, hs]
    refine ⟨by simp [hp.paySize], by simp, by simp, by simp [hph], fun _ => ?_, by simp, by simp, by simp⟩
    simp only [hc]
    rw [key] at hk
    omega

theorem takeChecksum_ok {d : Byte} {s t : State} (hp : ParserOk s.params s.p) (h : takeChecksum d s = next t) :
    ParserOk t.params t.p := by
  obtain ⟨hr, e, -⟩ := takeChecksum_next h
  rw [e, hr.params]
  exact .idle hp.paySize

theorem takeChecksum_queueOk {d : Byte} {s t : State} (hs : s.p.st = .readChecksum) (hp : ParserOk s.params s.p)
    (hq : QueueOk s.params s.q) (h : takeChecksum d s = next t) : QueueOk t.params t.q := by
  obtain ⟨hr, -, ⟨-, e, -⟩ | ⟨-, -, e, -⟩ | ⟨-, hf, e, -⟩⟩ := takeChecksum_next h <;> rw [e, hr.params]
  · exact hq
  · exact hq
  · refine ⟨hq.sound.push _, ?_⟩
    rw [Queue.items_push hq.sound _ hf]
    intro x hx
    rcases List.mem_append.mp hx with hx | hx
    · exact hq.entries x hx
    · obtain ⟨h1, h2⟩ := hp.checksumDone hs
      obtain rfl := List.mem_singleton.mp hx
      simp [h1, h2]

/-! ### The invariant over the rows and over RX -/

theorem State.Inv.of_parts {s t : State} (h : s.ready = true) (hi : s.Inv) (hr : t.ready = s.ready)
    (hw : t.params = s.params) (hp : ParserOk t.params t.p) (hq : QueueOk t.params t.q) : t.Inv :=
  (inv_iff (hr.trans h)).mpr ⟨hw ▸ hi.params, hp, hq⟩

/-- A receive operation that leaves the queue alone needs the parser's part only. -/
theorem State.Inv.of_received {s t : State} (h : s.ready = true) (hi : s.Inv) (hr : Received s t)
    (hp : ParserOk t.params t.p) (hq : t.q = s.q) : t.Inv :=
  hi.of_parts h hr.ready hr.params hp (by rw [hq, hr.params]; exact ((inv_iff h).mp hi).2.2)

theorem takeAddr_inv {d : Byte} {s t : State} (h : s.ready = true) (hi : s.Inv) (hs : s.p.st = .readAddr)
    (hn : takeAddr d s = next t) : t.Inv :=
  hi.of_received h (takeAddr_next hn).1 (takeAddr_ok hs ((inv_iff h).mp hi).2.1 hn) (takeAddr_next hn).2.1

theorem takeCmd_inv {d : Byte} {s t : State} (h : s.ready = true) (hi : s.Inv) (hs : s.p.st = .readCmd)
    (hn : takeCmd d s = next t) : t.Inv :=
  hi.of_received h (by cases hn; exact received_report _ _ _) (takeCmd_ok hs ((inv_iff h).mp hi).2.1 hn)
    (by cases hn; rfl)

theorem takeLenLow_inv {d : Byte} {s t : State} (h : s.ready = true) (hi : s.Inv) (hs : s.p.st = .readLen)
    (hn : takeLenLow d s = next t) : t.Inv :=
  hi.of_received h (by cases hn; exact received_report _ _ _) (takeLenLow_ok hs ((inv_iff h).mp hi).2.1 hn)
    (by cases hn; rfl)

theorem takeLenHigh_inv {d : Byte} {s t : State} (h : s.ready = true) (hi : s.Inv) (hs : s.p.st = .readLen)
    (hn : takeLenHigh d s = next t) : t.Inv :=
  hi.of_received h (takeLenHigh_next hn).1 (takeLenHigh_ok hs ((inv_iff h).mp hi).2.1 hn) (takeLenHigh_next hn).2.1

theorem takePayload_inv {d : Byte} {s t : State} (h : s.ready = true) (hi : s.Inv) (hs : s.p.st = .readPayload)
    (hn : takePayload d s = next t) : t.Inv :=
  hi.of_received h (takePayload_next hn).1 (takePayload_ok hs ((inv_iff h).mp hi).2.1 hn) (takePayload_next hn).2.1

theorem takeChecksum_inv {d : Byte} {s t : State} (h : s.ready = true) (hi : s.Inv) (hs : s.p.st = .readChecksum)
    (hn : takeChecksum d s = next t) : t.Inv := by
  obtain ⟨-, hp, hq⟩ := (inv_iff h).mp hi
  have hr := (takeChecksum_next hn).1
  exact hi.of_parts h hr.ready hr.params (takeChecksum_ok hp hn) (takeChecksum_queueOk hs hp hq hn)

theorem dispatchData_inv {d : Byte} {s t : State} (h : s.ready = true) (hi : s.Inv) (hn : dispatchData d s = next t) :
    t.Inv := by
  unfold dispatchData at hn
  split at hn
  · cases hn; exact hi.setResult _
  · exact takeAddr_inv h hi ‹_› hn
  · exact takeCmd_inv h hi ‹_› hn
  · split at hn
    · exact takeLenHigh_inv h hi ‹_› hn
    · exact takeLenLow_inv h hi ‹_› hn
  · exact takePayload_inv h hi ‹_› hn
  · exact takeChecksum_inv h hi ‹_› hn

theorem restartFrame_inv {s t : State} (h : s.ready = true) (hi : s.Inv) (hn : restartFrame s = next t) : t.Inv := by
  cases hn
  exact State.Inv.of_received (s := s) h hi (received_report _ _ _) (.frameStart hi.paySize) rfl

theorem takeMarker_inv {s t : State} (h : s.ready = true) (hi : s.Inv) (hs : s.p.st ≠ .waitStart)
    (hn : takeMarker s = next t) : t.Inv := by
  cases hn
  exact State.Inv.of_received (s := s) h hi (received_report _ _ _) (((inv_iff h).mp hi).2.1.setEsc hs true) rfl

/-- In a frame the flag can be cleared (R174). -/
theorem State.Inv.clearEsc {s : State} (h : s.ready = true) (hi : s.Inv) (hs : s.p.st ≠ .waitStart) :
    ({ s with p := { s.p with esc := false } } : State).Inv :=
  State.Inv.of_parts (s := s) h hi rfl rfl (((inv_iff h).mp hi).2.1.setEsc hs false) ((inv_iff h).mp hi).2.2

theorem takeUnescaped_inv {b : Byte} {s t : State} (h : s.ready = true) (hi : s.Inv) (hs : s.p.st ≠ .waitStart)
    (hn : takeUnescaped b s = next t) : t.Inv :=
  dispatchData_inv (s := { s with p := { s.p with esc := false } }) h (hi.clearEsc h hs) hn

theorem rxByte_inv {b : Byte} {s t : State} (h : s.ready = true) (hi : s.Inv) (hn : rxByte b s = next t) : t.Inv := by
  unfold rxByte at hn
  split at hn
  · exact restartFrame_inv h hi hn
  · split at hn
    · cases hn; exact hi.setResult _
    · split at hn
      · exact takeUnescaped_inv h hi ‹_› hn
      · split at hn
        · exact takeMarker_inv h hi ‹_› hn
        · exact dispatchData_inv h hi hn

/-- An operation that changes the queue and its output keeps the invariant if the new queue meets its part. -/
theorem State.Inv.setQueue {s : State} {q : Queue} (h : s.ready = true) (hi : s.Inv) (hq : QueueOk s.params q)
    (r : Result) : ({ s with q := q, result := r } : State).Inv :=
  State.Inv.of_parts (s := s) h hi rfl rfl ((inv_iff h).mp hi).2.1 hq

/-! ### Completion -/

/-- With the invariant every data byte is taken: the bound test of R183 does not fail (R184). -/
theorem dispatchData_total {d : Byte} {s : State} (h : s.ready = true) (hi : s.Inv) :
    ∃ t, dispatchData d s = next t := by
  have hp := ((inv_iff h).mp hi).2.1
  unfold dispatchData
  split
  · exact ⟨_, rfl⟩
  · unfold takeAddr
    simp only
    split <;> exact ⟨_, rfl⟩
  · exact ⟨_, rfl⟩
  · split
    · unfold takeLenHigh
      simp only
      split
      · exact ⟨_, rfl⟩
      · split <;> exact ⟨_, rfl⟩
    · exact ⟨_, rfl⟩
  · have := hp.payloadRoom ‹_›
    unfold takePayload payloadFits
    rw [if_pos (by simp; omega)]
    exact ⟨_, rfl⟩
  · unfold takeChecksum
    simp only
    split <;> exact ⟨_, rfl⟩

theorem rxByte_total {b : Byte} {s : State} (h : s.ready = true) (hi : s.Inv) : ∃ t, rxByte b s = next t := by
  unfold rxByte
  split
  · exact ⟨_, rfl⟩
  · split
    · exact ⟨_, rfl⟩
    · split
      · exact dispatchData_total (s := { s with p := { s.p with esc := false } }) h (hi.clearEsc h ‹_›)
      · split
        · exact ⟨_, rfl⟩
        · exact dispatchData_total h hi

end Sys2Proof.Machine
end

