-- ==== Sys2Proof/Laws/Words.lean ====
section
/-! SUPPORT. Each reader of `decode` against its writer in `encode`: what it makes of the writer's bytes, and that it
accepts no other bytes. -/

namespace Sys2Proof

/-! ### Reading what was written -/

theorem readMarked_markedBytes (p rest : List Byte) : readMarked (markedBytes p ++ rest) = .ok (p, rest) := by
  induction p with
  | nil => cases rest <;> simp [markedBytes, readMarked]
  | cons b p ih => simp [markedBytes, readMarked, ih, Except.map]

theorem readBytes_append (p rest : List Byte) : readBytes p.length (p ++ rest) = .ok (p, rest) := by
  induction p with
  | nil => simp [readBytes]
  | cons b p ih => simp [readBytes, ih, Except.map]

/-- The two halves of a 16-bit number make it up again. -/
theorem half_of_bytes (n : Half) : (n.extractLsb' 8 8 ++ n.extractLsb' 0 8 : Half) = n := by
  rw [BitVec.extractLsb'_append_extractLsb'_eq_extractLsb' (by rfl)]
  simp

theorem readCounted_countedBytes (p rest : List Byte) (h : p.length ≤ maxLength) :
    readCounted (countedBytes p ++ rest) = .ok (p, rest) := by
  simp only [maxLength] at h
  simp only [countedBytes, readCounted, List.cons_append, half_of_bytes]
  rw [BitVec.toNat_ofNat, Nat.mod_eq_of_lt (by omega), readBytes_append]

/-! ### Accepting nothing else -/

theorem readByte_eq_ok {bs rest : List Byte} {b : Byte} : readByte bs = .ok (b, rest) ↔ bs = b :: rest := by
  cases bs <;> simp [readByte]

theorem readMarked_word {bs p rest : List Byte} (h : readMarked bs = .ok (p, rest)) :
    bs = markedBytes p ++ rest := by
  match bs with
  | [] => simp [readMarked] at h
  | [m] =>
    simp only [readMarked] at h
    split at h
    · obtain ⟨rfl, rfl⟩ := Prod.mk.inj (Except.ok.inj h)
      simp_all [markedBytes]
    · split at h <;> simp at h
  | m :: b :: r =>
    simp only [readMarked] at h
    split at h
    · obtain ⟨rfl, rfl⟩ := Prod.mk.inj (Except.ok.inj h)
      simp_all [markedBytes]
    · split at h
      · cases hr : readMarked r with
        | error e => simp [hr, Except.map] at h
        | ok v =>
          obtain ⟨l, left⟩ := v
          simp only [hr, Except.map, Except.ok.injEq, Prod.mk.injEq] at h
          obtain ⟨rfl, rfl⟩ := h
          simp_all [markedBytes, readMarked_word hr]
      · simp at h

theorem readMarked_eq_ok {bs p rest : List Byte} : readMarked bs = .ok (p, rest) ↔ bs = markedBytes p ++ rest :=
  ⟨readMarked_word, by rintro rfl; exact readMarked_markedBytes _ _⟩

theorem readBytes_eq_ok {n : Nat} {bs p rest : List Byte} :
    readBytes n bs = .ok (p, rest) ↔ p.length = n ∧ bs = p ++ rest := by
  refine ⟨?_, by rintro ⟨rfl, rfl⟩; exact readBytes_append _ _⟩
  induction n generalizing bs p rest with
  | zero => simp [readBytes]; rintro rfl rfl; simp
  | succ n ih =>
    cases bs with
    | nil => simp [readBytes]
    | cons b bs =>
      intro h
      simp only [readBytes] at h
      cases hr : readBytes n bs with
      | error e => simp [hr, Except.map] at h
      | ok v =>
        obtain ⟨l, left⟩ := v
        simp only [hr, Except.map, Except.ok.injEq, Prod.mk.injEq] at h
        obtain ⟨rfl, rfl⟩ := h
        simp [ih hr]

theorem readCounted_word {bs p rest : List Byte} (h : readCounted bs = .ok (p, rest)) :
    p.length ≤ maxLength ∧ bs = countedBytes p ++ rest := by
  match bs with
  | [] => simp [readCounted] at h
  | [_] => simp [readCounted] at h
  | lo :: hi :: r =>
    simp only [readCounted] at h
    obtain ⟨hl, rfl⟩ := readBytes_eq_ok.mp h
    have hlt : p.length < 65536 := hl ▸ (hi ++ lo : Half).isLt
    have hn : BitVec.ofNat 16 p.length = (hi ++ lo : Half) := by rw [hl]; simp
    have hlo : (hi ++ lo : Half).extractLsb' 0 8 = lo := by rw [BitVec.extractLsb'_append_eq_right]
    have hhi : (hi ++ lo : Half).extractLsb' 8 8 = hi := by rw [BitVec.extractLsb'_append_eq_left]
    refine ⟨by simp only [maxLength]; omega, ?_⟩
    simp [countedBytes, hn, hlo, hhi]

end Sys2Proof
end

