-- ==== Sys2Proof/Laws/PerInstr.lean ====
section
/-! SUPPORT. Per instruction: its word begins with a byte that meets the `match` and `mask` of its row in
spec/opcode_table.json, and has a selector byte (log 2). -/

namespace Sys2Proof.Laws.TableMatch

/-- The word of `i` has a first byte in the row's code space, and a second byte. -/
def Statement (i : Instr) : Prop :=
  ∃ (code selector : Byte) (ops : List Byte),
    encode i = code :: selector :: ops ∧ code &&& i.tableMask = i.tableMatch

theorem rx (b : Byte) : Statement (.rx b) :=
  ⟨_, _, _, rfl, by simp [Instr.tableMask, Instr.tableMatch]⟩

theorem qRead : Statement .qRead :=
  ⟨_, _, _, rfl, by simp [Instr.tableMask, Instr.tableMatch]⟩

theorem txSend (a c : Byte) (p : List Byte) : Statement (.txSend a c p) :=
  ⟨_, _, _, rfl, by simp [Instr.tableMask, Instr.tableMatch]⟩

theorem txSend1 (a c b : Byte) : Statement (.txSend1 a c b) :=
  ⟨_, _, _, rfl, by simp [Instr.tableMask, Instr.tableMatch]⟩

theorem crc8Update (acc b : Byte) : Statement (.crc8Update acc b) :=
  ⟨_, _, _, rfl, by simp [Instr.tableMask, Instr.tableMatch]⟩

theorem crc8Calc (bytes : List Byte) : Statement (.crc8Calc bytes) :=
  ⟨_, _, _, rfl, by simp [Instr.tableMask, Instr.tableMatch]⟩

theorem escape (data : List Byte) : Statement (.escape data) :=
  ⟨_, _, _, rfl, by simp [Instr.tableMask, Instr.tableMatch]⟩

theorem reset : Statement .reset :=
  ⟨_, _, _, rfl, by simp [Instr.tableMask, Instr.tableMatch]⟩

theorem qPush (cmd : Byte) (payload : List Byte) : Statement (.qPush cmd payload) :=
  ⟨_, _, _, rfl, by simp [Instr.tableMask, Instr.tableMatch]⟩

theorem rxDelim : Statement .rxDelim :=
  ⟨_, _, _, rfl, by simp [Instr.tableMask, Instr.tableMatch]⟩

theorem rxIdle (b : Byte) : Statement (.rxIdle b) :=
  ⟨_, _, _, rfl, by simp [Instr.tableMask, Instr.tableMatch]⟩

theorem rxUnesc (b : Byte) : Statement (.rxUnesc b) :=
  ⟨_, _, _, rfl, by simp [Instr.tableMask, Instr.tableMatch]⟩

theorem rxEsc : Statement .rxEsc :=
  ⟨_, _, _, rfl, by simp [Instr.tableMask, Instr.tableMatch]⟩

theorem rxData (b : Byte) : Statement (.rxData b) :=
  ⟨_, _, _, rfl, by simp [Instr.tableMask, Instr.tableMatch]⟩

theorem rxAddr (d : Byte) : Statement (.rxAddr d) :=
  ⟨_, _, _, rfl, by simp [Instr.tableMask, Instr.tableMatch]⟩

theorem rxCmd (d : Byte) : Statement (.rxCmd d) :=
  ⟨_, _, _, rfl, by simp [Instr.tableMask, Instr.tableMatch]⟩

theorem rxLenLo (d : Byte) : Statement (.rxLenLo d) :=
  ⟨_, _, _, rfl, by simp [Instr.tableMask, Instr.tableMatch]⟩

theorem rxLenHi (d : Byte) : Statement (.rxLenHi d) :=
  ⟨_, _, _, rfl, by simp [Instr.tableMask, Instr.tableMatch]⟩

theorem rxPayload (d : Byte) : Statement (.rxPayload d) :=
  ⟨_, _, _, rfl, by simp [Instr.tableMask, Instr.tableMatch]⟩

theorem rxChecksum (d : Byte) : Statement (.rxChecksum d) :=
  ⟨_, _, _, rfl, by simp [Instr.tableMask, Instr.tableMatch]⟩

theorem frame (a c : Byte) (p : List Byte) : Statement (.frame a c p) :=
  ⟨_, _, _, rfl, by simp [Instr.tableMask, Instr.tableMatch]⟩

theorem packet (a c : Byte) (p : List Byte) : Statement (.packet a c p) :=
  ⟨_, _, _, rfl, by simp [Instr.tableMask, Instr.tableMatch]⟩

theorem ack : Statement .ack :=
  ⟨_, _, _, rfl, by simp [Instr.tableMask, Instr.tableMatch]⟩

theorem nack : Statement .nack :=
  ⟨_, _, _, rfl, by simp [Instr.tableMask, Instr.tableMatch]⟩

theorem broadcast : Statement .broadcast :=
  ⟨_, _, _, rfl, by simp [Instr.tableMask, Instr.tableMatch]⟩

theorem master : Statement .master :=
  ⟨_, _, _, rfl, by simp [Instr.tableMask, Instr.tableMatch]⟩

theorem evNone : Statement .evNone :=
  ⟨_, _, _, rfl, by simp [Instr.tableMask, Instr.tableMatch]⟩

theorem evFrameOk : Statement .evFrameOk :=
  ⟨_, _, _, rfl, by simp [Instr.tableMask, Instr.tableMatch]⟩

theorem evResync : Statement .evResync :=
  ⟨_, _, _, rfl, by simp [Instr.tableMask, Instr.tableMatch]⟩

theorem evAddrSkip : Statement .evAddrSkip :=
  ⟨_, _, _, rfl, by simp [Instr.tableMask, Instr.tableMatch]⟩

theorem evSizeViolation : Statement .evSizeViolation :=
  ⟨_, _, _, rfl, by simp [Instr.tableMask, Instr.tableMatch]⟩

theorem evCrcFail : Statement .evCrcFail :=
  ⟨_, _, _, rfl, by simp [Instr.tableMask, Instr.tableMatch]⟩

theorem evQueueFull : Statement .evQueueFull :=
  ⟨_, _, _, rfl, by simp [Instr.tableMask, Instr.tableMatch]⟩

end Sys2Proof.Laws.TableMatch
end

