-- ==== Sys2Proof/Laws/Wire.lean ====
section
/-! SUPPORT. Runs of received bytes: how they compose, and what the units, the header and the payload of a packet do to a
parser that is at that point of a frame. -/

namespace Sys2Proof.Machine
open Host.Outcome

/-! ### The output of the last operation is not read -/

theorem dispatchData_result (d : Byte) (s : State) (r : Result) :
    dispatchData d { s with result := r } = dispatchData d s := by
  unfold dispatchData
  simp only
  split <;> simp only [takeAddr, takeCmd, takeLenHigh, takeLenLow, takePayload, takeChecksum, ignoreByte, report_eq]

theorem rxByte_result (b : Byte) (s : State) (r : Result) : rxByte b { s with result := r } = rxByte b s := by
  unfold rxByte
  simp only [restartFrame, ignoreByte, takeMarker, takeUnescaped, report_eq]
  split
  · rfl
  · split
    · rfl
    · split
      · exact dispatchData_result _ { s with p := { s.p with esc := false } } r
      · split
        · rfl
        · exact dispatchData_result _ s r

theorem rxs_result (bs : List Byte) (s : State) (r : Result) : rxs bs { s with result := r } = rxs bs s := by
  cases bs with
  | nil => rfl
  | cons b bs => simp only [rxs, rxByte_result]

/-! ### Runs -/

/-- A run completes exactly when its first byte and the rest do, and answers their events in order (R106). -/
theorem rxs_cons_eq_next {b : Byte} {bs : List Byte} {s t : State} :
    rxs (b :: bs) s = next t ↔ ∃ u v, rxByte b s = next u ∧ rxs bs u = next v ∧
      t = { v with result := .events (u.result.eventList ++ v.result.eventList) } := by
  simp only [rxs, andThen_eq_next, finish_eq, Host.Outcome.next.injEq]
  constructor
  · rintro ⟨u, h1, v, h2, rfl⟩; exact ⟨u, v, h1, h2, rfl⟩
  · rintro ⟨u, v, h1, h2, rfl⟩; exact ⟨u, h1, v, h2, rfl⟩

/-- The bytes `bs` lead from `s` to `t`, whatever the output of `t`, with the events `es`. -/
def Runs (bs : List Byte) (s t : State) (es : List Event) : Prop :=
  rxs bs s = next { t with result := .events es }

theorem Runs.nil (s : State) : Runs [] s s [] := rfl

theorem Runs.cons {b : Byte} {bs : List Byte} {s u t : State} {e : Event} {es : List Event}
    (h1 : rxByte b s = next { u with result := .event e }) (h2 : Runs bs u t es) : Runs (b :: bs) s t (e :: es) := by
  unfold Runs at *
  rw [rxs_cons_eq_next]
  exact ⟨_, _, h1, by rw [rxs_result]; exact h2, rfl⟩

theorem Runs.append {a b : List Byte} {es fs : List Event} : ∀ {s u t : State}, Runs a s u es → Runs b u t fs →
    Runs (a ++ b) s t (es ++ fs) := by
  induction a generalizing es with
  | nil =>
    intro s u t h1 h2
    have hs := Host.Outcome.next.inj h1
    have he : es = [] := by simpa using (congrArg State.result hs).symm
    subst he
    unfold Runs at *
    rw [← rxs_result b u (.events []), ← hs, rxs_result] at h2
    exact h2
  | cons x a ih =>
    intro s u t h1 h2
    obtain ⟨v, w, h3, h4, h5⟩ := rxs_cons_eq_next.mp h1
    obtain ⟨e, he⟩ := (rxByte_received h3).event
    have hv : v = { v with result := .event e } := by rw [← he]
    have hw : ∃ gs, w.result = .events gs := by
      cases a with
      | nil => cases h4; exact ⟨_, rfl⟩
      | cons y a => obtain ⟨_, _, _, _, rfl⟩ := rxs_cons_eq_next.mp h4; exact ⟨_, rfl⟩
    obtain ⟨gs, hg⟩ := hw
    have hes : es = e :: gs := by simpa [he, hg, Result.eventList] using congrArg State.result h5
    subst hes
    have hrun : Runs a v u gs := by
      have e1 := congrArg (fun z : State => ({ z with result := .events gs } : State)) h5
      have e2 : w = { u with result := .events gs } := by rw [show ({ u with result := .events gs } : State) =
        { w with result := .events gs } by simpa using e1, ← hg]
      unfold Runs
      rw [h4, e2]
    rw [hv] at h3
    exact Runs.cons h3 (ih hrun h2)

/-- A run of an instance in use with the invariant completes with one event a byte. -/
theorem Runs.total {bs : List Byte} : ∀ {s : State}, s.ready = true → s.Inv →
    ∃ t es, Runs bs s t es ∧ es.length = bs.length := by
  induction bs with
  | nil => intro s _ _; exact ⟨s, [], .nil s, rfl⟩
  | cons b bs ih =>
    intro s h hi
    obtain ⟨u, hu⟩ := rxByte_total (b := b) h hi
    obtain ⟨e, he⟩ := (rxByte_received hu).event
    obtain ⟨t, es, h1, h2⟩ := ih ((rxByte_received hu).ready.trans h) (rxByte_inv h hi hu)
    exact ⟨t, e :: es, .cons (by rw [hu, ← he]) h1, by simp [h2]⟩

theorem rxs_inv {bs : List Byte} : ∀ {s t : State}, s.ready = true → s.Inv → rxs bs s = next t → t.Inv := by
  induction bs with
  | nil => intro s t _ hi hn; cases hn; exact hi.setResult _
  | cons b bs ih =>
    intro s t h hi hn
    obtain ⟨u, v, h1, h2, rfl⟩ := rxs_cons_eq_next.mp hn
    exact (ih ((rxByte_received h1).ready.trans h) (rxByte_inv h hi h1) h2).setResult _

/-- A run touches neither the parameters nor the sink nor the trace, and leaves the instance in use. -/
theorem rxs_received {bs : List Byte} : ∀ {s t : State}, rxs bs s = next t →
    t.params = s.params ∧ t.ready = s.ready ∧ t.sink = s.sink ∧ t.trace = s.trace := by
  induction bs with
  | nil => intro s t h; cases h; exact ⟨rfl, rfl, rfl, rfl⟩
  | cons b bs ih =>
    intro s t hn
    obtain ⟨u, v, h1, h2, rfl⟩ := rxs_cons_eq_next.mp hn
    obtain ⟨e1, e2, e3, e4⟩ := ih h2
    have hr := rxByte_received h1
    exact ⟨e1.trans hr.params, e2.trans hr.ready, e3.trans hr.sink, e4.trans hr.trace⟩

/-! ### The parts of a frame -/

theorem rxByte_delim (s : State) :
    rxByte 0xAA#8 s = next { ({ s with p := frameStart s.p } : State) with
      result := .event (if s.p.st = .waitStart then .evNone else .evResync) } := by
  simp [rxByte, restartFrame]

/-- Outside a frame bytes without a delimiter pass (R173). -/
theorem Runs.idle {bs : List Byte} {s : State} (hs : s.p.st = .waitStart) (hb : 0xAA#8 ∉ bs) :
    Runs bs s s (List.replicate bs.length .evNone) := by
  induction bs with
  | nil => exact .nil s
  | cons b bs ih =>
    simp only [List.mem_cons, not_or] at hb
    refine .cons ?_ (ih hb.2)
    simp [rxByte, hs, Ne.symm hb.1, ignoreByte]

/-- The bytes of one unit are taken as the one data byte they stand for (R94, R96). -/
theorem Runs.unit {v : Byte} {s t : State} {e : Event} (hw : s.p.st ≠ .waitStart) (he : s.p.esc = false)
    (h : dispatchData v s = next { t with result := .event e }) :
    Runs (escapeUnit v) s t (List.replicate ((escapeUnit v).length - 1) .evNone ++ [e]) := by
  have marker : rxByte 0xAB#8 s =
      next { ({ s with p := { s.p with esc := true } } : State) with result := .event .evNone } := by
    simp [rxByte, hw, he, takeMarker]
  have masked : ∀ x : Byte, x ≠ 0xAA#8 → unmask x = v →
      rxByte x { s with p := { s.p with esc := true } } = next { t with result := .event e } := by
    intro x hx hv
    have hs : ({ s with p := { s.p with esc := false } } : State) = s := by rw [← he]
    simp only [rxByte, hx, if_false, hw, if_true, takeUnescaped, hv]
    rw [hs]; exact h
  rcases escapeUnit_cases v with ⟨hv, e'⟩ | ⟨hv, e'⟩ | ⟨hv, hv', e'⟩
  · rw [e']; exact .cons marker (.cons (masked _ (by decide) (by rw [hv]; decide)) (.nil _))
  · rw [e']; exact .cons marker (.cons (masked _ (by decide) (by rw [hv]; decide)) (.nil _))
  · rw [e']
    refine .cons ?_ (.nil _)
    simp only [rxByte, hv, hv', if_false, hw, he]
    simpa using h

/-- A unit whose data byte reports nothing reports nothing. -/
theorem Runs.quietUnit {v : Byte} {s t : State} (hw : s.p.st ≠ .waitStart) (he : s.p.esc = false)
    (h : dispatchData v s = next { t with result := .event .evNone }) :
    Runs (escapeUnit v) s t (List.replicate (escapeUnit v).length .evNone) := by
  have hrun := Runs.unit hw he h
  have hl := (escapeUnit_length v).1
  rw [show [Event.evNone] = List.replicate 1 .evNone from rfl, List.replicate_append_replicate] at hrun
  rwa [show (escapeUnit v).length - 1 + 1 = (escapeUnit v).length by omega] at hrun

theorem replicate_length_append (a b : List Byte) (e : Event) :
    List.replicate (a ++ b).length e = List.replicate a.length e ++ List.replicate b.length e := by
  rw [List.length_append, List.replicate_append_replicate]

/-- The rest of a payload, `done` bytes of it stored already, brings the parser to the checksum (R183). -/
theorem Runs.payload {rest done : List Byte} : ∀ {s : State}, s.p.st = .readPayload → s.p.esc = false →
    s.p.pay.length = s.params.maxPayload → s.p.len.toNat ≤ s.params.maxPayload →
    s.p.cnt.toNat = done.length → s.p.pay.take done.length = done →
    s.p.len.toNat = done.length + rest.length → rest ≠ [] →
    ∃ pay,
      Runs (stuff rest) s
        { s with p := { s.p with
            st := .readChecksum, cnt := s.p.len, pay := pay, crc := rest.foldl crc8Update s.p.crc } }
        (List.replicate (stuff rest).length .evNone) ∧
      pay.length = s.params.maxPayload ∧ pay.take s.p.len.toNat = done ++ rest := by
  induction rest generalizing done with
  | nil => intro s _ _ _ _ _ _ _ h; simp at h
  | cons v rest ih =>
    intro s hst hesc hpl hlm hcnt hdone hlen _
    have hlt : s.p.cnt.toNat < s.p.len.toNat := by rw [hcnt, hlen]; simp
    have hc := cnt_succ hlt
    have hd : dispatchData v s = next { ({ s with p := { s.p with
        crc := crc8Update s.p.crc v, pay := s.p.pay.set s.p.cnt.toNat v, cnt := s.p.cnt + 1,
        st := if s.p.cnt + 1 = s.p.len then .readChecksum else s.p.st } } : State) with
        result := .event .evNone } := by
      simp only [dispatchData, hst, takePayload, payloadFits, bufWrite, report_eq]
      rw [if_pos (by simp; omega)]
    have hq := Runs.quietUnit (by simp [hst]) hesc hd
    have key : s.p.cnt + 1 = s.p.len ↔ rest = [] := by
      rw [← BitVec.toNat_inj, hc, hcnt, hlen]
      simp [← List.length_eq_zero_iff]
    have htake : (s.p.pay.set s.p.cnt.toNat v).take (done.length + 1) = done ++ [v] := by
      rw [hcnt, List.take_add_one, List.take_set_of_le (by omega), hdone]
      congr 1
      rw [List.getElem?_set_self (by omega)]
      rfl
    rw [stuff_cons, replicate_length_append]
    by_cases hr : rest = []
    · subst hr
      have hk := key.mpr rfl
      refine ⟨s.p.pay.set s.p.cnt.toNat v, ?_, by simp [hpl], by rw [hlen]; simpa using htake⟩
      simp only [hk, if_true] at hq
      simpa using hq
    · have hk : ¬ s.p.cnt + 1 = s.p.len := fun h => hr (key.mp h)
      simp only [hk, if_false] at hq
      obtain ⟨pay, h1, h2, h3⟩ := ih (done := done ++ [v])
        (s := { s with p := { s.p with
          crc := crc8Update s.p.crc v, pay := s.p.pay.set s.p.cnt.toNat v, cnt := s.p.cnt + 1, st := s.p.st } })
        hst hesc (by simp [hpl]) hlm (by simp only [hc]; simp [hcnt]) (by simpa using htake)
        (by simp [hlen]; omega) hr
      exact ⟨pay, hq.append h1, h2, by simpa using h3⟩

/-- The length field after both of its bytes is the length (R97). -/
theorem setLen_bytes (n : Nat) (h : n ≤ maxLength) :
    setLenHigh (setLenLow 0#16 (lenLow n)) (lenHigh n) = BitVec.ofNat 16 n := by
  simp only [maxLength] at h
  apply BitVec.eq_of_toNat_eq
  rw [setLenHigh_toNat, setLenLow_toNat]
  simp [lenLow, lenHigh]
  omega

/-- `s` with its parser in a frame, nothing of the payload stored. -/
def inFrame (s : State) (a c : Byte) (len : Half) (phase : Bool) (crc : Byte) (st : PState) : State :=
  { s with p := { frameStart s.p with addr := a, cmd := c, len := len, lenPhase := phase, crc := crc, st := st } }

/-- The header up to the low length byte, at the start of a frame this parser accepts (R177 to R180). -/
theorem Runs.header {s : State} {a c : Byte} {n : Nat} (ha : a = s.params.myAddr ∨ a = 0x00#8) :
    Runs (stuff [a, c, lenLow n]) { s with p := frameStart s.p }
      (inFrame s a c (setLenLow 0#16 (lenLow n)) true (crc8 [a, c, lenLow n]) .readLen)
      (List.replicate (stuff [a, c, lenLow n]).length .evNone) := by
  have hm : addressMatches s.params a = true := by simpa [addressMatches] using ha
  have haddr : Runs (escapeUnit a) { s with p := frameStart s.p } (inFrame s a 0#8 0#16 false (crc8 [a]) .readCmd)
      (List.replicate (escapeUnit a).length .evNone) := by
    apply Runs.quietUnit (by simp) (by simp)
    simp only [dispatchData, frameStart_st, takeAddr, hm, if_true, report_eq]
    rfl
  rw [show stuff [a, c, lenLow n] = escapeUnit a ++ (escapeUnit c ++ escapeUnit (lenLow n)) by simp [stuff],
    replicate_length_append, replicate_length_append]
  exact haddr.append (Runs.append (u := inFrame s a c 0#16 false (crc8 [a, c]) .readLen)
    (.quietUnit (by simp [inFrame]) rfl rfl) (.quietUnit (by simp [inFrame]) rfl rfl))

/-- The high length byte of a length `n` after that header (R181). -/
theorem inFrame_lenHigh {s : State} {a c : Byte} {n : Nat} (hn : n ≤ maxLength) :
    dispatchData (lenHigh n) (inFrame s a c (setLenLow 0#16 (lenLow n)) true (crc8 [a, c, lenLow n]) .readLen) =
      if n = 0 then
        next { inFrame s a c (BitVec.ofNat 16 n) false (crc8 [a, c, lenLow n, lenHigh n]) .readChecksum with
          result := .event .evNone }
      else if n ≤ s.params.maxPayload then
        next { inFrame s a c (BitVec.ofNat 16 n) false (crc8 [a, c, lenLow n, lenHigh n]) .readPayload with
          result := .event .evNone }
      else next { ({ s with p := idle s.p } : State) with result := .event .evSizeViolation } := by
  have e := setLen_bytes n hn
  simp only [maxLength] at hn
  have e0 : BitVec.ofNat 16 n = 0 ↔ n = 0 := by
    rw [← BitVec.toNat_inj]; simp; omega
  have e1 : (BitVec.ofNat 16 n).toNat = n := by simp; omega
  simp only [dispatchData, inFrame, takeLenHigh, lengthInRange, e, e0, e1, report_eq, if_true, decide_eq_true_eq]
  split
  · rfl
  · split <;> rfl

/-- The packet of an admitted command up to its checksum brings the parser to the checksum with the command, the payload
and the checksum it holds (R177 to R183). -/
theorem Runs.body {s : State} {a c : Byte} {p : List Byte} (hw : s.params.Wf)
    (hpl : s.p.pay.length = s.params.maxPayload) (ha : a = s.params.myAddr ∨ a = 0x00#8)
    (hp : p.length ≤ s.params.maxPayload) :
    ∃ u : State,
      Runs (stuff (packetBody a c p)) { s with p := frameStart s.p } u
        (List.replicate (stuff (packetBody a c p)).length .evNone) ∧
      u.p.st = .readChecksum ∧ u.p.esc = false ∧ u.p.cmd = c ∧ u.p.pay.take u.p.cnt.toNat = p ∧
      u.p.crc = crc8 (packetBody a c p) ∧
      u.q = s.q ∧ u.params = s.params ∧ u.ready = s.ready ∧ u.sink = s.sink ∧ u.trace = s.trace := by
  have hm := hw.payloadMax
  have hhi := inFrame_lenHigh (s := s) (a := a) (c := c) (n := p.length) (by omega)
  simp only [maxLength] at hm
  rw [show stuff (packetBody a c p) = stuff [a, c, lenLow p.length] ++ (escapeUnit (lenHigh p.length) ++ stuff p) by
      simp [packetBody, stuff], replicate_length_append, replicate_length_append]
  by_cases h0 : p = []
  · subst h0
    simp only [List.length_nil, if_true] at hhi
    exact ⟨_, (Runs.header ha).append ((Runs.quietUnit (by simp [inFrame]) rfl hhi).append (.nil _)), rfl, rfl, rfl,
      by simp [inFrame], rfl, rfl, rfl, rfl, rfl, rfl⟩
  · rw [if_neg (by simpa using h0), if_pos hp] at hhi
    have e1 : (BitVec.ofNat 16 p.length).toNat = p.length := by simp; omega
    obtain ⟨pay, h1, -, h3⟩ := Runs.payload (rest := p) (done := [])
      (s := inFrame s a c (BitVec.ofNat 16 p.length) false (crc8 [a, c, lenLow p.length, lenHigh p.length])
        .readPayload)
      rfl rfl hpl (by simp only [inFrame, e1]; exact hp) rfl rfl (by simp only [inFrame, e1]; simp) h0
    exact ⟨_, (Runs.header ha).append ((Runs.quietUnit (by simp [inFrame]) rfl hhi).append h1), rfl, rfl, rfl,
      by simpa [inFrame] using h3, by simp [inFrame, packetBody, crc8], rfl, rfl, rfl, rfl, rfl⟩

/-- FRAME is the run of the frame's bytes (log 11). -/
theorem exec_frame_of_runs {a c : Byte} {p : List Byte} {s t : State} {es : List Event} (h : s.ready = true)
    (hp : p.length ≤ maxLength) (hr : Runs (frame a c p) s t es) :
    exec (.frame a c p) s = next { t with result := .events es } := by
  simp only [exec, execFrame, whenReady_true h]
  rw [if_neg (by omega)]
  exact hr

end Sys2Proof.Machine
end

