-- ==== Sys2Proof/Laws/Ports.lean ====
section
/-! SUPPORT. What a step can do, said once; what a row that names arriving bytes does; where `Q.PUSH` runs. -/

namespace Sys2Proof.Machine
open Host.Outcome

theorem reachesPort_of_portOperation {i : Instr} (p : Parser) (h : portOperation i = true) : reachesPort p i = true := by
  simp [reachesPort, h]

@[simp] theorem reachesPort_qPush (p : Parser) (cmd : Byte) (payload : List Byte) :
    reachesPort p (.qPush cmd payload) = false := rfl

/-- A row reaches a port exactly when it is an operation there or names arriving bytes (R10). -/
theorem reachesPort_iff {p : Parser} {i : Instr} :
    reachesPort p i = true ↔ portOperation i = true ∨ ∃ bytes, arrivingBytes p i = some bytes := by
  simp [reachesPort, Option.isSome_iff_exists]

/-- A step completes exactly when no operation is offered, or the word in front is a row that reaches a port and whose
meaning completes (R10, R264). -/
theorem step_eq_next {s t : State} :
    step s = next t ↔ (s.trace = [] ∧ t = { s with result := .nothing }) ∨
      ∃ i rest, decode s.trace = .ok (i, rest) ∧ reachesPort s.p i = true ∧
        exec i { s with trace := rest } = next t := by
  unfold step
  split <;> rename_i h0
  · constructor
    · intro h; cases h; exact .inl ⟨h0, rfl⟩
    · rintro (⟨-, rfl⟩ | ⟨_, _, h, -⟩)
      · rfl
      · rw [h0] at h; cases h
  · split <;> rename_i h1 <;> rw [← h0] at h1
    · constructor
      · intro h
        split at h
        · exact .inr ⟨_, _, h1, ‹_›, h⟩
        · cases h
      · rintro (⟨h, -⟩ | ⟨_, _, h, h2, h3⟩)
        · rw [h] at h0; cases h0
        · cases h1.symm.trans h
          rw [if_pos h2]; exact h3
    · constructor
      · intro h; cases h
      · rintro (⟨h, -⟩ | ⟨_, _, h, -⟩)
        · rw [h] at h0; cases h0
        · cases h1.symm.trans h

/-- A row that the selection of the data level admits for a byte taken as it is, and that completes, is RX of that byte
(R176). -/
theorem rxByte_of_selectsData {d : Byte} {s : State} (h : selectsData s.p d = true) :
    rxByte d s = dispatchData d s := by
  simp only [selectsData, Bool.and_eq_true, bne_iff_ne, ne_eq, Bool.not_eq_true'] at h
  obtain ⟨⟨⟨h1, h2⟩, h3⟩, h4⟩ := h
  simp [rxByte, h1, h2, h3, h4]

/-- A row that names arriving bytes, if it completes, does what their arrival does: RX of the one byte, or the run of
them for FRAME and PACKET (R99, R104, R106). -/
theorem exec_arriving {i : Instr} {s t : State} {bytes : List Byte} (ha : arrivingBytes s.p i = some bytes)
    (hn : exec i s = next t) :
    s.ready = true ∧ ((∃ b, bytes = [b] ∧ rxByte b s = next t) ∨ rxs bytes s = next t) := by
  cases i <;> simp only [arrivingBytes, Option.some.injEq, reduceCtorEq] at ha
  case rxDelim =>
    obtain ⟨h, hn⟩ := whenReady_eq_next.mp hn
    exact ⟨h, .inl ⟨_, ha.symm, by simpa [rxByte] using hn⟩⟩
  case rxIdle b =>
    obtain ⟨h, hn⟩ := whenReady_eq_next.mp hn
    obtain ⟨hs, hn⟩ := whenSelected_eq_next.mp hn
    exact ⟨h, .inl ⟨b, ha.symm, by simp_all [selectsIdle, rxByte]⟩⟩
  case rxUnesc b =>
    obtain ⟨h, hn⟩ := whenReady_eq_next.mp hn
    obtain ⟨hs, hn⟩ := whenSelected_eq_next.mp hn
    exact ⟨h, .inl ⟨b, ha.symm, by simp_all [selectsUnesc, rxByte]⟩⟩
  case rxEsc =>
    obtain ⟨h, hn⟩ := whenReady_eq_next.mp hn
    obtain ⟨hs, hn⟩ := whenSelected_eq_next.mp hn
    exact ⟨h, .inl ⟨_, ha.symm, by simp_all [selectsEsc, rxByte]⟩⟩
  case rxData b =>
    obtain ⟨h, hn⟩ := whenReady_eq_next.mp hn
    obtain ⟨hs, hn⟩ := whenSelected_eq_next.mp hn
    exact ⟨h, .inl ⟨b, ha.symm, by rw [rxByte_of_selectsData hs]; exact hn⟩⟩
  case rxAddr d | rxCmd d | rxLenLo d | rxLenHi d | rxPayload d | rxChecksum d =>
    obtain ⟨h, hn⟩ := whenReady_eq_next.mp hn
    obtain ⟨hs, hn⟩ := whenSelected_eq_next.mp hn
    split at ha
    · rename_i hd
      refine ⟨h, .inl ⟨d, (Option.some.inj ha).symm, ?_⟩⟩
      rw [rxByte_of_selectsData hd]
      simp_all [dispatchData]
    · cases ha
  case frame a c p | packet a c p =>
    obtain ⟨h, hn⟩ := whenReady_eq_next.mp hn
    split at hn
    · cases hn
    · exact ⟨h, .inr (ha ▸ hn)⟩
  case ack | nack | broadcast | master =>
    obtain ⟨h, hn⟩ := whenReady_eq_next.mp hn
    exact ⟨h, .inl ⟨_, ha.symm, hn⟩⟩

/-- The selection of `Q.PUSH` spelled out (R211). -/
theorem selectsPush_iff {p : Parser} {cmd : Byte} {payload : List Byte} :
    selectsPush p cmd payload = true ↔
      p.st = .readChecksum ∧ p.rxCk = p.crc ∧ cmd = p.cmd ∧ payload = p.pay.take p.cnt.toNat := by
  simp [selectsPush, bufReadAll, and_assoc]

/-- `Q.PUSH` completes only at its point inside an `RX`, for the command the parser holds, and changes the queue and its
answer only (R211). -/
theorem execQPush_next {cmd : Byte} {payload : List Byte} {s t : State} (hn : execQPush cmd payload s = next t) :
    s.ready = true ∧ selectsPush s.p cmd payload = true ∧ payload.length ≤ s.params.maxPayload ∧
      t = { s with
        q := (s.q.push s.params.queueCapacity ⟨cmd, payload⟩).1
        result := .accepted (s.q.push s.params.queueCapacity ⟨cmd, payload⟩).2 } := by
  obtain ⟨h, hn⟩ := whenReady_eq_next.mp hn
  split at hn
  · cases hn
  · obtain ⟨hs, hn⟩ := whenSelected_eq_next.mp hn
    exact ⟨h, hs, by omega, (Host.Outcome.next.inj hn).symm⟩

end Sys2Proof.Machine
end

