-- ==== Sys2Proof/Tests/Slice0.lean ====
section
/-! SUPPORT. Tests of the model on small states, their expected results from spec/95_test_vectors.md (named by their T
numbers) or from the rules named, and for each statement of Certificates/Slice0/Obligations.lean that has hypotheses a
witness that meets them. -/

namespace Sys2Proof.Tests
open Sys2Proof.Machine
open Host.Outcome

/-! ### Helpers -/

/-- The state an answer goes on to. -/
def nextOf : Answer → Option State
  | .next s => some s
  | .fault _ => none
  | .refused _ => none

/-- The refusal of an answer. -/
def refusalOf : Answer → Option Refusal
  | .next _ => none
  | .fault _ => none
  | .refused r => some r

/-- The vector instance (spec/95, conventions), in use, with the given parser and queue. -/
def inUse (p : Parser) (q : Queue) : State :=
  { State.reset with p := p, q := q }

/-- The parser of the vector instance in state `st`, every other register clear. -/
def parserIn (st : PState) : Parser :=
  { Parser.reset Params.vectors with st := st }

def idleParser : Parser := parserIn .waitStart
def addrParser : Parser := parserIn .readAddr

/-- After `AA 02` (T40). -/
def cmdParser : Parser := { parserIn .readCmd with addr := 0x02#8, crc := 0x0E#8 }

/-- After `AA 02 03` (T40). -/
def lenParser : Parser := { parserIn .readLen with addr := 0x02#8, cmd := 0x03#8, crc := 0x23#8 }

/-- After `AA 02 03 lo`, with the accumulator `crc` (T40). -/
def phaseParser (lo crc : Byte) : Parser :=
  { lenParser with lenPhase := true, len := BitVec.ofNat 16 lo.toNat, crc := crc }

/-- After `AA 02 03 03 00 01` (T40). -/
def payloadParser : Parser :=
  { parserIn .readPayload with
    addr := 0x02#8, cmd := 0x03#8, len := 3#16, cnt := 1#16, pay := [0x01, 0, 0, 0, 0, 0, 0, 0], crc := 0x44#8 }

/-- After `AA 02 03 03 00 01 AB 8A` (T40). -/
def lastParser : Parser :=
  { payloadParser with cnt := 2#16, pay := [0x01, 0xAA, 0, 0, 0, 0, 0, 0], crc := 0x84#8 }

/-- After `AA 02 03 03 00 01 AB 8A 07` (T40). -/
def checksumParser : Parser :=
  { lastParser with st := .readChecksum, cnt := 3#16, pay := [0x01, 0xAA, 0x07, 0, 0, 0, 0, 0], crc := 0x80#8 }

/-- The same parser inside the `RX` of its matching checksum `80`, before the frame is cleared (R185). -/
def matchedParser : Parser := { checksumParser with rxCk := 0x80#8 }

/-- The parser with its escape flag set. -/
def flagged (p : Parser) : Parser := { p with esc := true }

def emptyQueue : Queue := Queue.reset Params.vectors

/-- After `F(10)` (T50). -/
def oneEntry : Queue := { slots := [⟨0x10, []⟩, Entry.unwritten], head := 0, tail := 1, count := 1 }

/-- After `F(10)`, `F(11)` (T50). -/
def fullQueue : Queue := { slots := [⟨0x10, []⟩, ⟨0x11, []⟩], head := 0, tail := 0, count := 2 }

/-- After `F(10)`, `F(11)`, `Q.READ`, `F(13)` (T50): the array wrapped around. -/
def wrappedQueue : Queue := { slots := [⟨0x13, []⟩, ⟨0x11, []⟩], head := 1, tail := 1, count := 2 }

/-- What a receive operation of the parser `p` shows: the parser after it, the entries held, the output. -/
def received (i : Instr) (p : Parser) (q : Queue) : Option (Parser × List Entry × Result) :=
  (nextOf (exec i (inUse p q))).map fun t => (t.p, t.items, t.result)

/-! ### The helper states meet the invariant -/

theorem vectors_wf : Params.vectors.Wf := ⟨by decide, by decide, by decide, by decide⟩

theorem inUse_inv {p : Parser} {q : Queue} (hp : ParserOk Params.vectors p) (hq : QueueOk Params.vectors q) :
    (inUse p q).Inv :=
  (inv_iff rfl).mpr ⟨vectors_wf, hp, hq⟩

theorem idleParser_ok : ParserOk Params.vectors idleParser := .idle (p := idleParser) rfl
theorem addrParser_ok : ParserOk Params.vectors addrParser := .frameStart (p := addrParser) rfl

theorem cmdParser_ok : ParserOk Params.vectors cmdParser :=
  ⟨by decide, fun h => absurd h (by decide), by decide, by decide, by decide, by decide, by decide, by decide⟩

theorem phaseParser_ok : ParserOk Params.vectors (phaseParser 0x03 0xE0) :=
  ⟨by decide, fun h => absurd h (by decide), by decide, by decide, by decide, by decide, by decide, by decide⟩

theorem payloadParser_ok : ParserOk Params.vectors payloadParser :=
  ⟨by decide, fun h => absurd h (by decide), by decide, by decide, by decide, by decide, by decide, by decide⟩

theorem checksumParser_ok : ParserOk Params.vectors checksumParser :=
  ⟨by decide, fun h => absurd h (by decide), by decide, by decide, by decide, by decide, by decide, by decide⟩

theorem matchedParser_ok : ParserOk Params.vectors matchedParser :=
  ⟨by decide, fun h => absurd h (by decide), by decide, by decide, by decide, by decide, by decide, by decide⟩

theorem emptyQueue_ok : QueueOk Params.vectors emptyQueue := ⟨⟨rfl, by decide, by decide, by decide⟩, by decide⟩
theorem oneEntry_ok : QueueOk Params.vectors oneEntry := ⟨⟨rfl, by decide, by decide, by decide⟩, by decide⟩
theorem fullQueue_ok : QueueOk Params.vectors fullQueue := ⟨⟨rfl, by decide, by decide, by decide⟩, by decide⟩
theorem wrappedQueue_ok : QueueOk Params.vectors wrappedQueue := ⟨⟨rfl, by decide, by decide, by decide⟩, by decide⟩

/-! ### WellFormed: an ill-formed term for each check -/

theorem test_wf_refuses_delimiter_as_idle : (Instr.rxIdle 0xAA).wf = false := by decide
theorem test_wf_refuses_delimiter_as_unescaped : (Instr.rxUnesc 0xAA).wf = false := by decide
theorem test_wf_refuses_delimiter_as_data : (Instr.rxData 0xAA).wf = false := by decide
theorem test_wf_refuses_marker_as_data : (Instr.rxData 0xAB).wf = false := by decide

/-- A payload one byte longer than the 16-bit length field can say is ill formed in each row that has the check. -/
theorem wf_refuses_long (p : List Byte) (h : p.length = 65536) :
    (Instr.qPush 0 p).wf = false ∧ (Instr.frame 0 0 p).wf = false ∧ (Instr.packet 0 0 p).wf = false := by
  simp [Instr.wf, h]

theorem test_wf_refuses_long_push : (Instr.qPush 0 (List.replicate 65536 0)).wf = false :=
  (wf_refuses_long _ List.length_replicate).1
theorem test_wf_refuses_long_frame : (Instr.frame 0 0 (List.replicate 65536 0)).wf = false :=
  (wf_refuses_long _ List.length_replicate).2.1
theorem test_wf_refuses_long_packet : (Instr.packet 0 0 (List.replicate 65536 0)).wf = false :=
  (wf_refuses_long _ List.length_replicate).2.2

/-- R7: a maximum of 0 or of 65536, no queue, an escape buffer one byte short. -/
theorem test_params_refused :
    ¬ ({ Params.vectors with maxPayload := 0 } : Params).Wf ∧
    ¬ ({ Params.vectors with maxPayload := 65536, maxEscaped := 200000 } : Params).Wf ∧
    ¬ ({ Params.vectors with queueCapacity := 0 } : Params).Wf ∧
    ¬ ({ Params.vectors with maxEscaped := 25 } : Params).Wf :=
  ⟨fun h => absurd h.payloadPos (by decide), fun h => absurd h.payloadMax (by decide),
    fun h => absurd h.capacityPos (by decide), fun h => absurd h.escapedMin (by decide)⟩

theorem test_decode_refuses_ill_formed : decode [0xAA, 5] = .error .illFormed := by rfl

/-! ### Decode: a word for each row (R107: the port ids of R10, the classes of R99, the codes of R61, R104, R261) -/

theorem test_decode_rx : decode [0b00000000#8, 0, 0x8A] = .ok (.rx 0x8A, []) := by rfl
theorem test_decode_qRead : decode [0b00000001#8, 0] = .ok (.qRead, []) := by rfl
theorem test_decode_txSend : decode [0b00000010#8, 0, 0x02, 0x03, 1, 0x01, 1, 0xAA, 0] =
    .ok (.txSend 0x02 0x03 [0x01, 0xAA], []) := by rfl
theorem test_decode_txSend1 : decode [0b00000010#8, 1, 0x02, 0x03, 0x55] = .ok (.txSend1 0x02 0x03 0x55, []) := by rfl
theorem test_decode_crc8Update : decode [0b00000011#8, 0, 0x12, 0x34] = .ok (.crc8Update 0x12 0x34, []) := by rfl
theorem test_decode_crc8Calc : decode [0b00000011#8, 1, 1, 0x31, 1, 0x32, 0] = .ok (.crc8Calc [0x31, 0x32], []) := by rfl
theorem test_decode_escape : decode [0b00000100#8, 0, 1, 0xAA, 0, 0x77] = .ok (.escape [0xAA], [0x77]) := by rfl
theorem test_decode_reset : decode [0b00000101#8, 0] = .ok (.reset, []) := by rfl
theorem test_decode_qPush : decode [0x00, 2, 0x10, 1, 0x55, 0] = .ok (.qPush 0x10 [0x55], []) := by rfl
theorem test_decode_rxDelim : decode [0b10101010#8, 0] = .ok (.rxDelim, []) := by rfl
theorem test_decode_rxIdle : decode [0xAB, 3] = .ok (.rxIdle 0xAB, []) := by rfl
theorem test_decode_rxUnesc : decode [0x8A, 4] = .ok (.rxUnesc 0x8A, []) := by rfl
theorem test_decode_rxEsc : decode [0b10101011#8, 0] = .ok (.rxEsc, []) := by rfl
theorem test_decode_rxData : decode [0xAC, 5] = .ok (.rxData 0xAC, []) := by rfl
theorem test_decode_rxAddr : decode [0x02, 6] = .ok (.rxAddr 0x02, []) := by rfl
theorem test_decode_rxCmd : decode [0x03, 7] = .ok (.rxCmd 0x03, []) := by rfl
theorem test_decode_rxLenLo : decode [0xFF, 8] = .ok (.rxLenLo 0xFF, []) := by rfl
theorem test_decode_rxLenHi : decode [0x01, 9] = .ok (.rxLenHi 0x01, []) := by rfl
theorem test_decode_rxPayload : decode [0xAA, 10] = .ok (.rxPayload 0xAA, []) := by rfl
theorem test_decode_rxChecksum : decode [0x80, 11] = .ok (.rxChecksum 0x80, []) := by rfl

/-- R63, R91: the length is little-endian, low byte first. -/
theorem test_decode_frame : decode [0b10101010#8, 12, 0x02, 0x03, 0x02, 0x00, 0x01, 0xAA] =
    .ok (.frame 0x02 0x03 [0x01, 0xAA], []) := by rfl
theorem test_decode_packet : decode [0x05, 13, 0x03, 0x01, 0x00, 0x55, 0x66] =
    .ok (.packet 0x05 0x03 [0x55], [0x66]) := by rfl

theorem test_decode_ack : decode [0b11101110#8, 0] = .ok (.ack, []) := by rfl
theorem test_decode_nack : decode [0b11111111#8, 0] = .ok (.nack, []) := by rfl
theorem test_decode_broadcast : decode [0b00000000#8, 14] = .ok (.broadcast, []) := by rfl
theorem test_decode_master : decode [0b00000001#8, 14] = .ok (.master, []) := by rfl
theorem test_decode_evNone : decode [0b000#8, 15] = .ok (.evNone, []) := by rfl
theorem test_decode_evFrameOk : decode [0b001#8, 15] = .ok (.evFrameOk, []) := by rfl
theorem test_decode_evResync : decode [0b010#8, 15] = .ok (.evResync, []) := by rfl
theorem test_decode_evAddrSkip : decode [0b011#8, 15] = .ok (.evAddrSkip, []) := by rfl
theorem test_decode_evSizeViolation : decode [0b100#8, 15] = .ok (.evSizeViolation, []) := by rfl
theorem test_decode_evCrcFail : decode [0b101#8, 15] = .ok (.evCrcFail, []) := by rfl
theorem test_decode_evQueueFull : decode [0b110#8, 0] = .ok (.evQueueFull, []) := by rfl

/-- What is no word is refused by name: nothing, a cut word, an unknown code, an unknown selector, a bad list mark. -/
theorem test_decode_refusals :
    decode [] = .error .noWord ∧ decode [0x05] = .error .endsInside ∧ decode [0x00, 0] = .error .endsInside ∧
    decode [0x07, 0] = .error (.unknownRow 0x07 0) ∧ decode [0x00, 16] = .error (.unknownRow 0x00 16) ∧
    decode [0x04, 0, 2, 0] = .error (.badListMark 2) ∧ decode [0xAA, 12, 2, 3, 1, 0] = .error .endsInside :=
  ⟨rfl, rfl, rfl, rfl, rfl, rfl, rfl⟩

/-- Words as the table numbers them. -/
theorem test_table_words :
    decodeTableWord 3 5 = some .reset ∧ decodeTableWord 8 0xAA = some .rxDelim ∧ decodeTableWord 8 0xAB = some .rxEsc ∧
    decodeTableWord 8 0xEE = some .ack ∧ decodeTableWord 3 2 = some (.txSend 0 0 []) ∧ decodeTableWord 8 0x07 = none :=
  ⟨rfl, rfl, rfl, rfl, rfl, rfl⟩

/-- The very next step runs the placed word, right after reset. -/
theorem test_withFetchWord :
    step (State.reset.withFetchWord 8 0xAA) = exec .rxDelim State.reset ∧
    step (State.reset.withFetchWord 3 1) = exec .qRead State.reset :=
  ⟨rfl, rfl⟩

/-! ### The CRC8 engine (T30, T31) -/

theorem test_crc8_update : [(0x00, 0x01), (0x00, 0x80), (0x12, 0x34), (0xFF, 0xFF), (0x0E, 0x03)].map
    (fun x : Byte × Byte => crc8Update x.1 x.2) = [0x07, 0x89, 0xF2, 0x00, 0x23] := by decide
theorem test_crc8_calc :
    crc8 [0x31, 0x32, 0x33, 0x34, 0x35, 0x36, 0x37, 0x38, 0x39] = 0xF4 ∧ crc8 [0xFF, 0xFF] = 0x24 ∧
    crc8 [0x02, 0x03, 0x03, 0x00, 0x01, 0xAA, 0x07] = 0x80 := by decide +kernel
theorem test_crc8_operations_before_reset :
    (nextOf (exec (.crc8Calc [0x01]) (State.powerUp State.reset))).map (·.result) = some (.byte 0x07) ∧
    (nextOf (exec (.crc8Update 0xFF 0x00) (State.powerUp State.reset))).map (·.result) = some (.byte 0xF3) := by decide

/-! ### The framing codec (T20, T21, T3) -/

theorem test_escape :
    escape 26 [0x02, 0x40, 0x00, 0x00, 0xAA] = ([0x02, 0x40, 0x00, 0x00, 0xAB, 0x8A], false) ∧
    escape 26 [0xA9, 0xAC, 0x8A, 0xAB] = ([0xA9, 0xAC, 0x8A, 0xAB, 0x8B], false) := by decide +kernel
theorem test_escape_truncates :
    escape 4 [0x01, 0x02, 0x03, 0xAA, 0x05] = ([0x01, 0x02, 0x03], true) ∧
    escape 4 [0x01, 0xAA, 0x02, 0x03] = ([0x01, 0xAB, 0x8A, 0x02], true) ∧
    escape 4 [0xAA, 0xAA] = ([0xAB, 0x8A, 0xAB, 0x8A], false) ∧
    escape 4 [0x01, 0x02, 0x03, 0x04, 0x05] = ([0x01, 0x02, 0x03, 0x04], true) := by decide
theorem test_unescape : unescape [0xFF, 0xAB, 0x8A, 0x00, 0xAB, 0x8B, 0x55] = [0xFF, 0xAA, 0x00, 0xAB, 0x55] := by
  decide

/-! ### The serializer (T60) -/

theorem test_txSend :
    (nextOf (exec (.txSend 0x02 0x03 [0x01, 0xAA, 0x07]) State.reset)).map (·.sink) =
      some [0xAA, 0x02, 0x03, 0x03, 0x00, 0x01, 0xAB, 0x8A, 0x07, 0x80] := by decide +kernel
theorem test_txSend_refuses_nine_bytes :
    refusalOf (exec (.txSend 0x02 0x03 [1, 2, 3, 4, 5, 6, 7, 8, 9]) State.reset) = some .payloadTooLong := by decide
theorem test_txSend1 :
    (nextOf (exec (.txSend1 0x02 0x03 0x55) { State.reset with sink := [0x77] })).map (·.sink) =
      some [0x77, 0xAA, 0x02, 0x03, 0x01, 0x00, 0x55, 0x39] := by decide +kernel

/-! ### The command FIFO (T50) -/

theorem test_qRead_wraps :
    (nextOf (exec .qRead (inUse idleParser wrappedQueue))).map (fun t => (t.items, t.q.head, t.q.count, t.result)) =
      some ([⟨0x13, []⟩], 0, 1, .entry (some ⟨0x11, []⟩)) := by decide
theorem test_qRead_empty :
    (nextOf (exec .qRead State.reset)).map (fun t => (t.q, t.result)) = some (State.reset.q, .entry none) := by decide
theorem test_qPush_wraps :
    (nextOf (exec (.qPush 0x03 [0x01, 0xAA, 0x07]) (inUse matchedParser oneEntry))).map
        (fun t => (t.items, t.q.tail, t.result)) =
      some ([⟨0x10, []⟩, ⟨0x03, [0x01, 0xAA, 0x07]⟩], 0, .accepted true) := by decide
theorem test_qPush_full :
    (nextOf (exec (.qPush 0x03 [0x01, 0xAA, 0x07]) (inUse matchedParser fullQueue))).map (fun t => (t.q, t.result)) =
      some (fullQueue, .accepted false) := by decide

/-- No port pushes (R10, R210): not in `WaitStart`, and not where an `RX` would. -/
theorem test_step_refuses_push :
    refusalOf (step { inUse idleParser oneEntry with trace := [0x00, 2, 0x10, 0] }) = some .notAtPort ∧
    refusalOf (step { inUse matchedParser oneEntry with trace := [0x00, 2, 0x03, 1, 0x01, 1, 0xAA, 1, 0x07, 0] }) =
      some .notAtPort :=
  ⟨rfl, rfl⟩

/-- A word of the data level is the arrival of its byte, and none where the byte would be a marker (R99, R176). -/
theorem test_step_takes_data_row :
    step { inUse cmdParser oneEntry with trace := [0x03, 7] } = exec (.rx 0x03) (inUse cmdParser oneEntry) ∧
    refusalOf (step { inUse cmdParser oneEntry with trace := [0xAB, 7] }) = some .notAtPort :=
  ⟨rfl, rfl⟩

/-! ### RX and its rows (T40, T41, T70) -/

theorem test_rx_delimiter_after_marker :
    received (.rx 0xAA) (flagged payloadParser) emptyQueue =
      some ({ addrParser with pay := payloadParser.pay }, [], .event .evResync) := by decide
theorem test_rx_marker_twice :
    received (.rx 0xAB) (flagged payloadParser) emptyQueue =
      some ({ lastParser with pay := [0x01, 0x8B, 0, 0, 0, 0, 0, 0], crc := 0x63 }, [], .event .evNone) := by decide
theorem test_rxDelim_idle :
    received .rxDelim idleParser emptyQueue = some (addrParser, [], .event .evNone) := by decide
theorem test_rxIdle_marker_sets_no_flag :
    received (.rxIdle 0xAB) idleParser emptyQueue = some (idleParser, [], .event .evNone) := by decide
theorem test_rxUnesc_address :
    received (.rxUnesc 0x22) (flagged addrParser) emptyQueue = some (cmdParser, [], .event .evNone) := by decide
theorem test_rxEsc_in_length :
    received .rxEsc (phaseParser 0x03 0xE0) emptyQueue =
      some (flagged (phaseParser 0x03 0xE0), [], .event .evNone) := by decide
theorem test_rxData_command :
    received (.rxData 0x03) cmdParser emptyQueue = some (lenParser, [], .event .evNone) := by decide
theorem test_rxAddr_foreign :
    received (.rxAddr 0x01) addrParser emptyQueue = some (idleParser, [], .event .evAddrSkip) := by decide
theorem test_rxCmd_reserved :
    received (.rxCmd 0xAB) cmdParser emptyQueue =
      some ({ lenParser with cmd := 0xAB, crc := 0x72 }, [], .event .evNone) := by decide
theorem test_rxLenLo :
    received (.rxLenLo 0xFF) lenParser emptyQueue = some (phaseParser 0xFF 0x1A, [], .event .evNone) := by decide
theorem test_rxLenHi_bounds :
    received (.rxLenHi 0x00) (phaseParser 0x08 0x8D) emptyQueue ≠ none ∧
    (received (.rxLenHi 0x00) (phaseParser 0x08 0x8D) emptyQueue).map (·.1.st) = some .readPayload ∧
    (received (.rxLenHi 0x00) (phaseParser 0x09 0x00) emptyQueue).map (·.2.2) = some (.event .evSizeViolation) := by
  decide
theorem test_rxLenHi_zero_and_order :
    (received (.rxLenHi 0x00) (phaseParser 0x00 0x00) emptyQueue).map (·.1.st) = some .readChecksum ∧
    (received (.rxLenHi 0x01) (phaseParser 0x00 0x00) emptyQueue).map (·.2.2) = some (.event .evSizeViolation) := by
  decide
theorem test_rxPayload_last :
    received (.rxPayload 0x07) lastParser emptyQueue = some (checksumParser, [], .event .evNone) := by decide
theorem test_rxPayload_masked_value :
    received (.rxPayload 0xAA) payloadParser emptyQueue = some (lastParser, [], .event .evNone) := by decide
theorem test_rxChecksum_good :
    received (.rxChecksum 0x80) checksumParser emptyQueue =
      some ({ idleParser with pay := checksumParser.pay }, [⟨0x03, [0x01, 0xAA, 0x07]⟩], .event .evFrameOk) := by decide +kernel
theorem test_rxChecksum_before_queue :
    (received (.rxChecksum 0x81) checksumParser fullQueue).map (·.2) =
      some ([⟨0x10, []⟩, ⟨0x11, []⟩], .event .evCrcFail) ∧
    (received (.rxChecksum 0x80) checksumParser fullQueue).map (·.2) =
      some ([⟨0x10, []⟩, ⟨0x11, []⟩], .event .evQueueFull) := by decide

/-! ### Frames, packets and codes (T2, T4, T47) -/

theorem test_frame_with_escaped_checksum :
    received (.frame 0x02 0x40 []) idleParser emptyQueue =
      some (idleParser, [⟨0x40, []⟩],
        .events [.evNone, .evNone, .evNone, .evNone, .evNone, .evNone, .evFrameOk]) := by decide +kernel
theorem test_frame_foreign :
    received (.frame 0x05 0x03 [0x01, 0x02]) idleParser emptyQueue =
      some (idleParser, [],
        .events [.evNone, .evAddrSkip, .evNone, .evNone, .evNone, .evNone, .evNone, .evNone]) := by decide +kernel
theorem test_packet_after_delimiter :
    received (.packet 0x02 0x03 []) addrParser emptyQueue =
      some (idleParser, [⟨0x03, []⟩], .events [.evNone, .evNone, .evNone, .evNone, .evFrameOk]) := by decide +kernel
theorem test_ack_as_command :
    (received .ack cmdParser emptyQueue).map (fun x => (x.1.cmd, x.1.st)) = some (0xEE, .readLen) := by decide
theorem test_nack_as_command :
    (received .nack cmdParser emptyQueue).map (fun x => (x.1.cmd, x.1.st)) = some (0xFF, .readLen) := by decide
theorem test_broadcast_address :
    received .broadcast addrParser emptyQueue = some (parserIn .readCmd, [], .event .evNone) := by decide
theorem test_master_address :
    received .master addrParser emptyQueue = some (idleParser, [], .event .evAddrSkip) := by decide
theorem test_events_are_emitted :
    [Instr.evNone, .evFrameOk, .evResync, .evAddrSkip, .evSizeViolation, .evCrcFail, .evQueueFull].map
        (fun i => received i payloadParser oneEntry) =
      [Event.evNone, .evFrameOk, .evResync, .evAddrSkip, .evSizeViolation, .evCrcFail, .evQueueFull].map
        (fun e => some (payloadParser, [⟨0x10, []⟩], .event e)) := by decide

/-! ### RESET and the life of an instance (T70) -/

theorem test_reset_in_mid_frame :
    received .reset (phaseParser 0x03 0xE0) oneEntry = some (idleParser, [], .nothing) := by decide
theorem test_before_reset :
    refusalOf (exec (.rx 0xAA) (State.powerUp State.reset)) = some .beforeReset ∧
    refusalOf (exec .qRead (State.powerUp State.reset)) = some .beforeReset := by decide

/-! ### Witnesses: for each statement with hypotheses, a state and operands that meet all of them -/

theorem witness_DecodeInvertsEncode :
    (Instr.rxIdle 0xAB).wf = true ∧ (Instr.rxUnesc 0xAB).wf = true ∧ (Instr.rxData 0xAC).wf = true ∧
    (Instr.qPush 0x10 [0x55]).wf = true ∧ (Instr.frame 0x02 0x03 [0xAA]).wf = true ∧
    (Instr.packet 0x02 0x03 []).wf = true ∧ (Instr.txSend 0x02 0x03 [0x01, 0xAA]).wf = true := by decide

theorem witness_DecodedBytesAreTheWord : decode [0x02, 0, 0x02, 0x03, 1, 0xAA, 0, 0x05, 0] =
    .ok (.txSend 0x02 0x03 [0xAA], [0x05, 0]) := by rfl

/-- A port operation, a row that names an arriving byte, and one that no port reaches. -/
theorem witness_StepRunsDecodedInstruction :
    (decode ({ inUse cmdParser oneEntry with trace := [0x00, 0, 0xAB, 0x01, 0] } : State).trace =
        .ok (.rx 0xAB, [0x01, 0]) ∧ portOperation (.rx 0xAB) = true) ∧
    (decode ({ inUse cmdParser oneEntry with trace := [0xEE, 0] } : State).trace = .ok (.ack, []) ∧
      arrivingBytes cmdParser .ack = some [0xEE]) ∧
    (decode ({ inUse cmdParser oneEntry with trace := [0x00, 2, 0x10, 0] } : State).trace = .ok (.qPush 0x10 [], []) ∧
      portOperation (.qPush 0x10 []) = false ∧ arrivingBytes cmdParser (.qPush 0x10 []) = none) :=
  ⟨⟨rfl, rfl⟩, ⟨rfl, rfl⟩, rfl, rfl, rfl⟩

theorem witness_StepWithoutAWord :
    (inUse cmdParser oneEntry).trace = [] ∧
    (({ inUse cmdParser oneEntry with trace := [0x07, 0] } : State).trace ≠ [] ∧
      decode ({ inUse cmdParser oneEntry with trace := [0x07, 0] } : State).trace = .error (.unknownRow 0x07 0)) :=
  ⟨rfl, by decide, rfl⟩

/-- The least and the greatest maximum that R7 admits. -/
theorem witness_InvariantHoldsAtReset :
    ({ maxPayload := 1, queueCapacity := 1, maxEscaped := 12, myAddr := 0xAA } : Params).Wf ∧
    ({ maxPayload := 65535, queueCapacity := 3, maxEscaped := 131080, myAddr := 0x00 } : Params).Wf :=
  ⟨⟨by decide, by decide, by decide, by decide⟩, ⟨by decide, by decide, by decide, by decide⟩⟩

theorem witness_StepKeepsInvariant :
    ∃ s t : State, s.Inv ∧ s.trace = [0x00, 0, 0x80] ∧ step s = next t :=
  ⟨{ inUse checksumParser oneEntry with trace := [0x00, 0, 0x80] }, _,
    (inUse_inv checksumParser_ok oneEntry_ok).setTrace _, rfl, rfl⟩

theorem witness_OnlyPureOperationsAndResetBeforeReset :
    (State.powerUp (inUse payloadParser fullQueue)).ready = false ∧ validBeforeReset (.rx 0xAA) = false ∧
    validBeforeReset .qRead = false ∧ validBeforeReset .reset = true ∧ validBeforeReset (.escape [0xAA]) = true := by
  decide

/-- With the flag set and clear, inside a frame and outside. -/
theorem witness_DelimiterRestartsFrame :
    (inUse (flagged payloadParser) oneEntry).ready = true ∧ (inUse idleParser emptyQueue).ready = true := by decide

theorem witness_IdleParserIgnoresBytes :
    (inUse idleParser oneEntry).ready = true ∧ (inUse idleParser oneEntry).p.st = .waitStart ∧ 0xAB#8 ≠ 0xAA#8 := by
  decide

theorem witness_MarkerOnlySetsFlag :
    (inUse payloadParser oneEntry).ready = true ∧ (inUse payloadParser oneEntry).p.st ≠ .waitStart ∧
    (inUse payloadParser oneEntry).p.esc = false := by decide

/-- The byte that unmasks to the delimiter, the marker itself, and a plain one. -/
theorem witness_FlaggedByteIsUnmasked :
    (inUse (flagged payloadParser) oneEntry).ready = true ∧ (inUse (flagged payloadParser) oneEntry).p.esc = true ∧
    ∀ b ∈ [0x8A#8, 0xAB#8, 0x20#8], b ≠ 0xAA#8 ∧
      dataRow (inUse (flagged payloadParser) oneEntry).p (b ^^^ 0x20#8) = some (.rxPayload (b ^^^ 0x20#8)) := by decide

theorem witness_PlainByteGoesToStateRow :
    (inUse (phaseParser 0x03 0xE0) oneEntry).ready = true ∧ (inUse (phaseParser 0x03 0xE0) oneEntry).p.esc = false ∧
    ∀ b ∈ [0xA9#8, 0xAC#8], b ≠ 0xAA#8 ∧ b ≠ 0xAB#8 ∧
      dataRow (inUse (phaseParser 0x03 0xE0) oneEntry).p b = some (.rxLenHi b) := by decide

/-- The own address, broadcast, and the neighbours of both. -/
theorem witness_AddressByteFilters :
    (inUse addrParser oneEntry).ready = true ∧ (inUse addrParser oneEntry).p.st = .readAddr ∧
    (∀ d ∈ [0x02#8, 0x00#8], d = (inUse addrParser oneEntry).params.myAddr ∨ d = 0x00#8) ∧
    (∀ d ∈ [0x01#8, 0x03#8, 0xFF#8], ¬ (d = (inUse addrParser oneEntry).params.myAddr ∨ d = 0x00#8)) := by decide

theorem witness_CommandByteIsStored :
    (inUse cmdParser oneEntry).ready = true ∧ (inUse cmdParser oneEntry).p.st = .readCmd := by decide

theorem witness_LowLengthByteIsStored :
    (inUse lenParser oneEntry).ready = true ∧ (inUse lenParser oneEntry).p.st = .readLen ∧
    (inUse lenParser oneEntry).p.lenPhase = false := by decide

/-- The lengths 0, 1, 8 (the maximum), 9 and 65535, as low byte and high byte. -/
theorem witness_HighLengthByteDecides :
    ∀ x ∈ [(0x00#8, 0x00#8, 0), (0x01#8, 0x00#8, 1), (0x08#8, 0x00#8, 8), (0x09#8, 0x00#8, 9), (0xFF#8, 0xFF#8, 65535)],
      (inUse (phaseParser x.1 0x00) oneEntry).ready = true ∧ (inUse (phaseParser x.1 0x00) oneEntry).p.st = .readLen ∧
      (inUse (phaseParser x.1 0x00) oneEntry).p.lenPhase = true ∧
      256 * x.2.1.toNat + (inUse (phaseParser x.1 0x00) oneEntry).p.len.toNat % 256 = x.2.2 := by decide

/-- A byte before the last and the last one. -/
theorem witness_PayloadByteIsAppended :
    ∀ p ∈ [payloadParser, lastParser],
      (inUse p oneEntry).ready = true ∧ (inUse p oneEntry).p.st = .readPayload ∧
      (inUse p oneEntry).p.cnt.toNat < (inUse p oneEntry).p.len.toNat ∧
      (inUse p oneEntry).p.cnt.toNat < (inUse p oneEntry).params.maxPayload := by decide

/-- The right checksum with room and without, and a wrong one. -/
theorem witness_ChecksumByteCompletesFrame :
    (∀ q ∈ [oneEntry, fullQueue], (inUse checksumParser q).ready = true ∧ (inUse checksumParser q).p.st = .readChecksum) ∧
    0x80#8 = (inUse checksumParser oneEntry).p.crc ∧ 0x81#8 ≠ (inUse checksumParser oneEntry).p.crc ∧
    (inUse checksumParser oneEntry).q.count ≠ Params.vectors.queueCapacity ∧
    (inUse checksumParser fullQueue).q.count = Params.vectors.queueCapacity := by decide

/-- A plain byte and, with the flag set, one to unmask, each with the row it selects. -/
theorem witness_ReceiveAlwaysCompletes :
    (inUse payloadParser oneEntry).Inv ∧ (inUse payloadParser oneEntry).ready = true ∧
    (inUse (flagged payloadParser) oneEntry).Inv ∧ (inUse (flagged payloadParser) oneEntry).p.esc = true ∧
    (inUse payloadParser oneEntry).p.esc = false ∧ (inUse payloadParser oneEntry).p.st ≠ .waitStart ∧
    0xAC#8 ≠ 0xAA#8 ∧ 0xAC#8 ≠ 0xAB#8 ∧
    dataRow (inUse payloadParser oneEntry).p 0xAC = some (.rxPayload 0xAC) :=
  ⟨inUse_inv payloadParser_ok oneEntry_ok, rfl,
    inUse_inv (payloadParser_ok.setEsc (by decide) true) oneEntry_ok, rfl, rfl, by decide, by decide, by decide, rfl⟩

theorem witness_ReceiveFollowsTransitionTable :
    ∃ t : State, (inUse (phaseParser 0x03 0xE0) oneEntry).Inv ∧ (inUse (phaseParser 0x03 0xE0) oneEntry).ready = true ∧
      exec (.rx 0x00) (inUse (phaseParser 0x03 0xE0) oneEntry) = next t :=
  ⟨_, inUse_inv phaseParser_ok oneEntry_ok, rfl, rfl⟩

/-- A frame whose checksum is wrong, and a delimiter in mid-frame. -/
theorem witness_ConditionsLeaveParserClean :
    (∃ t : State, (inUse checksumParser fullQueue).Inv ∧ (inUse checksumParser fullQueue).ready = true ∧
      exec (.rx 0x81) (inUse checksumParser fullQueue) = next t ∧ t.result = .event .evCrcFail) ∧
    (∃ t : State, (inUse payloadParser oneEntry).Inv ∧ (inUse payloadParser oneEntry).ready = true ∧
      exec (.rx 0xAA) (inUse payloadParser oneEntry) = next t ∧ t.result = .event .evResync) ∧
    Event.evCrcFail ≠ .evNone ∧ Event.evCrcFail ≠ .evFrameOk ∧ Event.evResync ≠ .evNone ∧
    Event.evResync ≠ .evFrameOk :=
  ⟨⟨_, inUse_inv checksumParser_ok fullQueue_ok, rfl, rfl, rfl⟩,
    ⟨_, inUse_inv payloadParser_ok oneEntry_ok, rfl, rfl, rfl⟩, by decide, by decide, by decide, by decide⟩

/-- The own address and broadcast, the longest payload, from the middle of another frame. -/
theorem witness_GoodFrameIsEnqueued :
    (inUse payloadParser oneEntry).Inv ∧ (inUse payloadParser oneEntry).ready = true ∧
    (∀ a ∈ [0x02#8, 0x00#8], a = (inUse payloadParser oneEntry).params.myAddr ∨ a = 0x00#8) ∧
    ([1, 2, 3, 4, 5, 6, 7, 8] : List Byte).length ≤ (inUse payloadParser oneEntry).params.maxPayload ∧
    (inUse payloadParser oneEntry).q.count ≠ (inUse payloadParser oneEntry).params.queueCapacity :=
  ⟨inUse_inv payloadParser_ok oneEntry_ok, rfl, by decide, by decide, by decide⟩

theorem witness_GoodFrameAtFullQueueIsDropped :
    (inUse idleParser wrappedQueue).Inv ∧ (inUse idleParser wrappedQueue).ready = true ∧
    0x02#8 = (inUse idleParser wrappedQueue).params.myAddr ∧
    ([] : List Byte).length ≤ (inUse idleParser wrappedQueue).params.maxPayload ∧
    (inUse idleParser wrappedQueue).q.count = (inUse idleParser wrappedQueue).params.queueCapacity :=
  ⟨inUse_inv idleParser_ok wrappedQueue_ok, rfl, rfl, by decide, rfl⟩

theorem witness_ForeignFrameIsSkipped :
    (inUse cmdParser oneEntry).Inv ∧ (inUse cmdParser oneEntry).ready = true ∧
    0xAA#8 ≠ (inUse cmdParser oneEntry).params.myAddr ∧ 0xAA#8 ≠ 0x00#8 ∧
    ([1, 2, 3, 4, 5, 6, 7, 8, 9] : List Byte).length ≤ 65535 :=
  ⟨inUse_inv cmdParser_ok oneEntry_ok, rfl, by decide, by decide, by decide⟩

/-- One byte above the maximum. -/
theorem witness_OverlongFrameIsRejected :
    (inUse cmdParser oneEntry).Inv ∧ (inUse cmdParser oneEntry).ready = true ∧
    0x02#8 = (inUse cmdParser oneEntry).params.myAddr ∧
    (inUse cmdParser oneEntry).params.maxPayload < ([1, 2, 3, 4, 5, 6, 7, 8, 9] : List Byte).length ∧
    ([1, 2, 3, 4, 5, 6, 7, 8, 9] : List Byte).length ≤ 65535 :=
  ⟨inUse_inv cmdParser_ok oneEntry_ok, rfl, rfl, by decide, by decide⟩

theorem witness_PacketIsFrameWithoutDelimiter :
    (inUse payloadParser fullQueue).Inv ∧ (inUse payloadParser fullQueue).ready = true ∧
    ([0xAA, 0xAB] : List Byte).length ≤ 65535 :=
  ⟨inUse_inv payloadParser_ok fullQueue_ok, rfl, by decide⟩

theorem witness_PacketWithoutDelimiterIsIgnored :
    (inUse idleParser oneEntry).ready = true ∧ (inUse idleParser oneEntry).p.st = .waitStart ∧
    ([0xAA, 0xAB] : List Byte).length ≤ 65535 := by decide

/-- Two parsers that differ in every register, and a frame after the delimiter. -/
theorem witness_DelimiterForgetsThePast :
    ∃ t t' : State, (inUse (flagged payloadParser) oneEntry).Inv ∧ (inUse idleParser oneEntry).Inv ∧
      (inUse (flagged payloadParser) oneEntry).ready = true ∧ (inUse idleParser oneEntry).ready = true ∧
      (inUse (flagged payloadParser) oneEntry).params = (inUse idleParser oneEntry).params ∧
      (inUse (flagged payloadParser) oneEntry).q = (inUse idleParser oneEntry).q ∧
      rxs [0xAA, 0x02, 0x03, 0xAB] (inUse (flagged payloadParser) oneEntry) = next t ∧
      rxs [0xAA, 0x02, 0x03, 0xAB] (inUse idleParser oneEntry) = next t' :=
  ⟨_, _, inUse_inv (payloadParser_ok.setEsc (by decide) true) oneEntry_ok, inUse_inv idleParser_ok oneEntry_ok, rfl, rfl,
    rfl, rfl, rfl, rfl⟩

/-- Raw bytes that end in an unpaired marker. -/
theorem witness_AccumulatorIsChecksumOfConsumedBytes :
    ∃ t : State, (inUse payloadParser oneEntry).Inv ∧ (inUse payloadParser oneEntry).ready = true ∧
      0xAA#8 ∉ [0x02#8, 0xAB, 0x8A, 0xAB] ∧
      rxs [0xAA, 0x02, 0xAB, 0x8A, 0xAB] (inUse payloadParser oneEntry) = next t ∧ t.p.st ≠ .waitStart :=
  ⟨_, inUse_inv payloadParser_ok oneEntry_ok, rfl, by decide, rfl, by decide⟩

theorem witness_ChecksumIsLinear : ([0x01, 0xAA] : List Byte).length = ([0xFF, 0x00] : List Byte).length := by rfl

theorem witness_SingleByteChangeIsDetected : 0x02#8 ≠ 0x03#8 := by decide

/-- Output that starts with a marker, and one that holds it behind another byte. -/
theorem witness_EscapedOutputHasNoDelimiter :
    stuff [0xAB] = [] ++ [0xAB, 0x8B] ∧ ([] : List Byte).getLast? ≠ some 0xAB#8 ∧
    stuff [0x01, 0xAA] = [0x01] ++ [0xAB, 0x8A] ∧ ([0x01] : List Byte).getLast? ≠ some 0xAB#8 := by decide

/-- A cut before the whole, and the whole. -/
theorem witness_EscapeCutsBeforeFirstUnitThatDoesNotFit :
    State.reset.params.maxEscaped < (stuff (List.replicate 14 0xAA)).length ∧
    (stuff (List.replicate 13 0xAA)).length ≤ State.reset.params.maxEscaped := by decide

theorem witness_UnescapeInvertsEscape : stuff [0x01, 0xAA] = stuff ([0x01] ++ [0xAA]) := by rfl

/-- The empty payload and the longest one. -/
theorem witness_SendEmitsTheWholeFrame :
    (inUse payloadParser fullQueue).params.Wf ∧ (inUse payloadParser fullQueue).ready = true ∧
    ([] : List Byte).length ≤ (inUse payloadParser fullQueue).params.maxPayload ∧
    ([1, 2, 3, 4, 5, 6, 7, 0xAA] : List Byte).length ≤ (inUse payloadParser fullQueue).params.maxPayload :=
  ⟨vectors_wf, rfl, by decide, by decide⟩

theorem witness_SendRefusesLongPayload :
    (inUse idleParser oneEntry).ready = true ∧
    (inUse idleParser oneEntry).params.maxPayload < ([1, 2, 3, 4, 5, 6, 7, 8, 9] : List Byte).length := by decide

theorem witness_SendOneByteEmitsItsFrame :
    (inUse cmdParser fullQueue).params.Wf ∧ (inUse cmdParser fullQueue).ready = true :=
  ⟨vectors_wf, rfl⟩

/-- On one instance in mid-frame, and from it to another with another address. -/
theorem witness_LoopbackDeliversTheCommand :
    (inUse payloadParser oneEntry).Inv ∧ (inUse payloadParser oneEntry).ready = true ∧
    0x02#8 = (inUse payloadParser oneEntry).params.myAddr ∧
    ([0xAA, 0xAB] : List Byte).length ≤ (inUse payloadParser oneEntry).params.maxPayload ∧
    (inUse payloadParser oneEntry).q.count ≠ (inUse payloadParser oneEntry).params.queueCapacity ∧
    (State.resetWith { Params.vectors with myAddr := 0x01 }).Inv ∧
    (State.resetWith { Params.vectors with myAddr := 0x01 }).ready = true ∧
    0x01#8 = (State.resetWith { Params.vectors with myAddr := 0x01 }).params.myAddr ∧
    ([0xAA, 0xAB] : List Byte).length ≤ (State.resetWith { Params.vectors with myAddr := 0x01 }).params.maxPayload ∧
    (State.resetWith { Params.vectors with myAddr := 0x01 }).q.count ≠
      (State.resetWith { Params.vectors with myAddr := 0x01 }).params.queueCapacity :=
  ⟨inUse_inv payloadParser_ok oneEntry_ok, rfl, rfl, by decide, by decide,
    (inv_iff rfl).mpr ⟨⟨by decide, by decide, by decide, by decide⟩, .idle (p := idleParser) rfl,
      ⟨⟨rfl, by decide, by decide, by decide⟩, by decide⟩⟩, rfl, rfl, by decide, by decide⟩

/-- Inside the RX of the matching checksum, with room and at a full queue. -/
theorem witness_PushAppendsUnlessFull :
    (∀ q ∈ [oneEntry, wrappedQueue], (inUse matchedParser q).Inv ∧ (inUse matchedParser q).ready = true ∧
      (inUse matchedParser q).p.st = .readChecksum ∧ (inUse matchedParser q).p.rxCk = (inUse matchedParser q).p.crc) ∧
    ∃ t : State, exec (.qPush 0x03 [0x01, 0xAA, 0x07]) (inUse matchedParser oneEntry) = next t := by
  refine ⟨fun q hq => ⟨inUse_inv matchedParser_ok ?_, rfl, rfl, rfl⟩, _, rfl⟩
  simp only [List.mem_cons, List.not_mem_nil, or_false] at hq
  rcases hq with rfl | rfl
  · exact oneEntry_ok
  · exact wrappedQueue_ok

/-- Of an empty queue and of one that wrapped around. -/
theorem witness_ReadTakesTheOldest :
    (inUse payloadParser emptyQueue).Inv ∧ (inUse payloadParser emptyQueue).ready = true ∧
    (inUse payloadParser emptyQueue).items = [] ∧
    (inUse payloadParser wrappedQueue).Inv ∧ (inUse payloadParser wrappedQueue).ready = true ∧
    (inUse payloadParser wrappedQueue).items = [⟨0x11, []⟩, ⟨0x13, []⟩] :=
  ⟨inUse_inv payloadParser_ok emptyQueue_ok, rfl, rfl, inUse_inv payloadParser_ok wrappedQueue_ok, rfl, rfl⟩

theorem witness_CircularBufferIsBoundedFifo :
    (inUse cmdParser wrappedQueue).Inv ∧ (inUse cmdParser wrappedQueue).ready = true ∧
    (Queue.run 2 [.read, .push ⟨0x14, []⟩, .push ⟨0x15, []⟩] wrappedQueue).2 =
      [.entry (some ⟨0x11, []⟩), .accepted true, .accepted false] :=
  ⟨inUse_inv cmdParser_ok wrappedQueue_ok, rfl, by decide⟩

theorem witness_StatusOutputsCountTheEntries :
    (inUse cmdParser fullQueue).Inv ∧ (inUse cmdParser fullQueue).ready = true ∧
    (inUse cmdParser emptyQueue).Inv ∧ (inUse cmdParser emptyQueue).ready = true :=
  ⟨inUse_inv cmdParser_ok fullQueue_ok, rfl, inUse_inv cmdParser_ok emptyQueue_ok, rfl⟩

theorem witness_EventCodesAreEmitted : (inUse payloadParser oneEntry).ready = true := by decide

/-- In `ReadCmd`, and outside a frame. -/
theorem witness_CommandCodesAreOpaque :
    (inUse cmdParser oneEntry).ready = true ∧ (inUse cmdParser oneEntry).p.st = .readCmd ∧
    (inUse cmdParser oneEntry).p.esc = false ∧
    (inUse idleParser oneEntry).ready = true ∧ (inUse idleParser oneEntry).p.st = .waitStart := by decide

/-- In `ReadAddr` of two parsers, one of them with address 0x01, and outside a frame. -/
theorem witness_AddressCodesAreMatched :
    (inUse addrParser oneEntry).ready = true ∧ (inUse addrParser oneEntry).p.st = .readAddr ∧
    (inUse addrParser oneEntry).p.esc = false ∧ (inUse addrParser oneEntry).params.myAddr ≠ 0x01#8 ∧
    ({ inUse addrParser oneEntry with params := { Params.vectors with myAddr := 0x01 } } : State).params.myAddr =
      0x01#8 ∧
    ({ inUse addrParser oneEntry with params := { Params.vectors with myAddr := 0x01 } } : State).ready = true ∧
    (inUse idleParser oneEntry).ready = true ∧ (inUse idleParser oneEntry).p.st = .waitStart := by decide

theorem witness_ParametersNeverChange :
    ∃ t : State, exec (.rx 0x80) (inUse checksumParser oneEntry) = next t ∧
      (inUse checksumParser oneEntry).ready = true :=
  ⟨_, rfl, rfl⟩

/-- One operation of each half. -/
theorem witness_HalvesStayApart :
    (∃ t : State, exec (.txSend 0x02 0x03 [0xAA]) (inUse payloadParser oneEntry) = next t) ∧
    leavesParser (.txSend 0x02 0x03 [0xAA]) = true ∧ leavesQueue (.txSend 0x02 0x03 [0xAA]) = true ∧
    (∃ t : State, exec .qRead (inUse payloadParser oneEntry) = next t) ∧
    leavesParser .qRead = true ∧ emitsOnSink .qRead = false :=
  ⟨⟨_, rfl⟩, rfl, rfl, ⟨_, rfl⟩, rfl, rfl⟩

/-- One state and byte for each clause, at the boundary of its range. -/
theorem witness_StopsAreByName :
    (∀ p ∈ [idleParser, addrParser, flagged addrParser, cmdParser, lenParser, phaseParser 0x03 0xE0, payloadParser,
        checksumParser], (inUse p oneEntry).ready = true) ∧
    addrParser.st ≠ .waitStart ∧ idleParser.st = .waitStart ∧ addrParser.esc = false ∧
    (flagged addrParser).esc = true ∧ cmdParser.st ≠ .readAddr ∧ lenParser.st ≠ .readCmd ∧
    (phaseParser 0x03 0xE0).lenPhase = true ∧ lenParser.lenPhase = false ∧ lastParser.st ≠ .readChecksum ∧
    checksumParser.st ≠ .readPayload ∧
    (∀ p ∈ [{ payloadParser with cnt := 3#16 }, { payloadParser with len := 9#16, cnt := 8#16 }],
      (inUse p oneEntry).p.st = .readPayload ∧
      ((inUse p oneEntry).p.len.toNat ≤ (inUse p oneEntry).p.cnt.toNat ∨
        (inUse p oneEntry).params.maxPayload ≤ (inUse p oneEntry).p.cnt.toNat)) ∧
    (inUse idleParser oneEntry).params.maxPayload < ([1, 2, 3, 4, 5, 6, 7, 8, 9] : List Byte).length ∧
    ([1, 2, 3, 4, 5, 6, 7, 8] : List Byte).length ≤ (inUse idleParser oneEntry).params.maxPayload ∧
    payloadParser.st ≠ .readChecksum ∧ checksumParser.rxCk ≠ checksumParser.crc ∧ 0x04#8 ≠ matchedParser.cmd ∧
    [0x01#8, 0xAA] ≠ matchedParser.pay.take matchedParser.cnt.toNat := by decide

theorem witness_StopsAreByName_length : 65535 < (List.replicate 65536 0x00#8).length := by
  rw [List.length_replicate]; decide

/-- A port operation, the arrival of one byte, and a run. -/
theorem witness_EveryStepIsAtAPort :
    ∀ trace ∈ [[0x01#8, 0], [0xEE, 0], [0xAA, 12, 0x03, 0x10, 0x00, 0x00]],
      ({ inUse cmdParser oneEntry with trace := trace } : State).trace ≠ [] ∧
      (nextOf (step { inUse cmdParser oneEntry with trace := trace })).isSome = true := by decide +kernel

/-- The matching checksum with room, a read, and the reset. -/
theorem witness_OnlyChecksumByteEnqueues :
    (inUse checksumParser oneEntry).Inv ∧ (inUse checksumParser oneEntry).ready = true ∧
    ∀ i ∈ [Instr.rx 0x80, .qRead, .reset],
      portOperation i = true ∧ ∃ t : State, exec i (inUse checksumParser oneEntry) = next t := by
  refine ⟨inUse_inv checksumParser_ok oneEntry_ok, rfl, fun i h => ?_⟩
  simp only [List.mem_cons, List.not_mem_nil, or_false] at h
  rcases h with rfl | rfl | rfl <;> exact ⟨rfl, _, rfl⟩

end Sys2Proof.Tests
end

/-! ## The scope: what a step performs, and where the model stops (spec/00_scope R10, R13, R14) -/

namespace Sys2Proof.Machine
open Host.Outcome

/-! ### What a step performs -/

/-- The word in front of the trace decides the step (R10, R11; log 10). -/
theorem step_of_decode {s : State} {i : Instr} {rest : List Byte} (h : decode s.trace = .ok (i, rest)) :
    step s = if reachesPort s.p i = true then exec i { s with trace := rest } else refused .notAtPort := by
  unfold step
  split <;> rename_i ht <;> rw [ht] at h
  · cases h
  · rw [h]

/-- A row that no port has and that names no arriving bytes reaches no port. -/
theorem reachesPort_eq_false_iff {p : Parser} {i : Instr} :
    reachesPort p i = false ↔ portOperation i = false ∧ arrivingBytes p i = none := by
  simp [reachesPort]

/-- An event code comes out of an RX; none goes in (R261). -/
theorem reachesPort_eventCode (p : Parser) {i : Instr}
    (hi : i ∈ [.evNone, .evFrameOk, .evResync, .evAddrSkip, .evSizeViolation, .evCrcFail, .evQueueFull]) :
    reachesPort p i = false := by
  simp only [List.mem_cons, List.not_mem_nil, or_false] at hi
  rcases hi with rfl | rfl | rfl | rfl | rfl | rfl | rfl <;> rfl

/-- `RX` on an instance in use is the receive operation (R170). -/
theorem exec_rx_of_ready {b : Byte} {s : State} (h : s.ready = true) : exec (.rx b) s = rxByte b s :=
  whenReady_true h _

/-! ### Where a row is not selected -/

/-- On an instance in use a row that is not selected is refused under its own name (R14, R99). -/
theorem refused_of_not_selected {s : State} {c : Bool} {row : String} {o : Answer} (hr : s.ready = true)
    (hc : c = false) : whenReady s (whenSelected c row o) = refused (.rowNotSelected row) := by
  simp [hr, hc]

theorem selectsIdle_eq_false_iff {p : Parser} {b : Byte} :
    selectsIdle p b = false ↔ b = 0xAA#8 ∨ p.st ≠ .waitStart := by
  simp [selectsIdle, or_iff_not_imp_left]

theorem selectsUnesc_eq_false_iff {p : Parser} {b : Byte} :
    selectsUnesc p b = false ↔ b = 0xAA#8 ∨ p.st = .waitStart ∨ p.esc = false := by
  simp [selectsUnesc, or_iff_not_imp_left]

theorem selectsEsc_eq_false_iff {p : Parser} : selectsEsc p = false ↔ p.st = .waitStart ∨ p.esc = true := by
  simp [selectsEsc, or_iff_not_imp_left]

theorem selectsData_eq_false_iff {p : Parser} {b : Byte} :
    selectsData p b = false ↔ b = 0xAA#8 ∨ b = 0xAB#8 ∨ p.st = .waitStart ∨ p.esc = true := by
  simp only [selectsData, Bool.and_eq_false_iff, bne_eq_false_iff_eq, Bool.not_eq_eq_eq_not, Bool.not_false]
  tauto

theorem selectsPush_eq_false_iff {p : Parser} {cmd : Byte} {payload : List Byte} :
    selectsPush p cmd payload = false ↔
      p.st ≠ .readChecksum ∨ p.rxCk ≠ p.crc ∨ cmd ≠ p.cmd ∨ payload ≠ p.pay.take p.cnt.toNat := by
  rw [Bool.eq_false_iff, Ne, selectsPush_iff]
  tauto

/-! ### Where a selected operation has no meaning -/

/-- Where the bound test fails, the payload row is refused (R184, spec/93 U3; log 14). -/
theorem takePayload_refused {d : Byte} {s : State}
    (h : s.p.len.toNat ≤ s.p.cnt.toNat ∨ s.params.maxPayload ≤ s.p.cnt.toNat) :
    takePayload d s = refused .payloadBound := by
  have hb : payloadFits s.params s.p = false := by
    simp only [payloadFits, decide_eq_false_iff_not]
    omega
  simp [takePayload, hb]

/-- An entry above the maximum is no operand of `Q.PUSH` (R211). -/
theorem execQPush_tooLong {cmd : Byte} {payload : List Byte} {s : State} (hr : s.ready = true)
    (h : s.params.maxPayload < payload.length) : execQPush cmd payload s = refused .payloadTooLong := by
  simp [execQPush, hr, h]

/-- For an entry within the maximum, `Q.PUSH` has its selection as its only guard (R211). -/
theorem execQPush_of_length_le {cmd : Byte} {payload : List Byte} {s : State}
    (h : payload.length ≤ s.params.maxPayload) :
    execQPush cmd payload s = whenReady s (whenSelected (selectsPush s.p cmd payload) "Q.PUSH"
      (finish (.accepted (s.q.push s.params.queueCapacity ⟨cmd, payload⟩).2)
        { s with q := (s.q.push s.params.queueCapacity ⟨cmd, payload⟩).1 })) := by
  rw [execQPush, if_neg (by omega)]

/-- A length above the 16-bit field's has no frame (R234). -/
theorem execFrame_tooLong {a c : Byte} {p : List Byte} {s : State} (hr : s.ready = true) (h : maxLength < p.length) :
    execFrame a c p s = refused .lengthNotExpressible := by
  rw [execFrame, whenReady_true hr, if_pos h]

/-- A length above the 16-bit field's has no packet (R234). -/
theorem execPacket_tooLong {a c : Byte} {p : List Byte} {s : State} (hr : s.ready = true) (h : maxLength < p.length) :
    execPacket a c p s = refused .lengthNotExpressible := by
  rw [execPacket, whenReady_true hr, if_pos h]

/-! ### The statements -/

/-- Settles O57: each row of the decoding levels is refused by its negated selection, and each other refusal is the
operation's own guard. -/
theorem stopsAreByName : Obligations.StopsAreByName := by
  intro s hr
  refine ⟨?idle, ?unesc, ?esc, ?data, ?addr, ?cmd, ?lenLo, ?lenHi, ?payload, ?checksum, ?bound, ?pushLong, ?push,
    ?length⟩
  case idle => exact fun b hb => refused_of_not_selected hr (selectsIdle_eq_false_iff.mpr hb)
  case unesc => exact fun b hb => refused_of_not_selected hr (selectsUnesc_eq_false_iff.mpr hb)
  case esc => exact fun hs => refused_of_not_selected hr (selectsEsc_eq_false_iff.mpr hs)
  case data => exact fun b hb => refused_of_not_selected hr (selectsData_eq_false_iff.mpr hb)
  case addr => exact fun d hs => refused_of_not_selected hr (beq_false_of_ne hs)
  case cmd => exact fun d hs => refused_of_not_selected hr (beq_false_of_ne hs)
  case lenLo => exact fun d hs => refused_of_not_selected hr (by simpa [or_iff_not_imp_left] using hs)
  case lenHi => exact fun d hs => refused_of_not_selected hr (by simpa [or_iff_not_imp_left] using hs)
  case payload => exact fun d hs => refused_of_not_selected hr (beq_false_of_ne hs)
  case checksum => exact fun d hs => refused_of_not_selected hr (beq_false_of_ne hs)
  case bound =>
    intro d hs hb
    simp [exec, execRxPayload, hr, hs, takePayload_refused hb]
  case pushLong => exact fun cmd payload h => execQPush_tooLong hr h
  case push =>
    intro cmd payload hl hs
    exact (execQPush_of_length_le hl).trans (refused_of_not_selected hr (selectsPush_eq_false_iff.mpr hs))
  case length => exact fun a c p h => ⟨execFrame_tooLong hr h, execPacket_tooLong hr h⟩

/-- Settles O58: what completes reaches a port, and a row that names arriving bytes does what their arrival does. -/
theorem everyStepIsAtAPort : Obligations.EveryStepIsAtAPort := by
  intro s t hne hstep
  obtain ⟨hnil, -⟩ | ⟨i, rest, hdec, hport, hexec⟩ := step_eq_next.mp hstep
  · exact absurd hnil hne
  refine ⟨i, rest, hdec, ?noPush, ?noEvent, ?atPort⟩
  case noPush =>
    rintro cmd payload rfl
    simp at hport
  case noEvent =>
    intro hev
    rw [reachesPort_eventCode s.p hev] at hport
    cases hport
  case atPort =>
    obtain hop | ⟨bytes, hbytes⟩ := reachesPort_iff.mp hport
    · exact .inl ⟨hop, hexec⟩
    · obtain ⟨hr, ⟨b, rfl, hrx⟩ | hrun⟩ := exec_arriving (s := { s with trace := rest }) hbytes hexec
      · exact .inr (.inl ⟨b, hbytes, (exec_rx_of_ready (s := { s with trace := rest }) hr).trans hrx⟩)
      · exact .inr (.inr ⟨bytes, hbytes, hr, hrun⟩)

/-- Settles O3: the decoder evaluated on each word. -/
theorem sampleWordsDecode : Obligations.SampleWordsDecode :=
  ⟨rfl, rfl, rfl, rfl, rfl, rfl, rfl, rfl, rfl, rfl, rfl⟩

/-- Settles O4: the two ways to reach a port and the one way not to. -/
theorem stepRunsDecodedInstruction : Obligations.StepRunsDecodedInstruction := by
  intro s i rest hdec
  rw [step_of_decode hdec]
  refine ⟨fun hop => ?_, fun bytes hbytes => ?_, fun hop hbytes => ?_⟩
  · rw [if_pos (reachesPort_of_portOperation s.p hop)]
  · rw [if_pos (reachesPort_iff.mpr (.inr ⟨bytes, hbytes⟩))]
  · rw [reachesPort_eq_false_iff.mpr ⟨hop, hbytes⟩, if_neg Bool.false_ne_true]

end Sys2Proof.Machine

/-! ## The state: its invariant (spec/10_state R45), its queue (R40, R42) and what operations leave alone (R22, R75) -/

namespace Sys2Proof.Machine
open Host.Outcome

/-! ### The queue's part of the invariant -/

/-- A queue of the right size that holds nothing, its indices 0, meets its part (R46, R250). -/
theorem QueueOk.clear {params : Params} {q : Queue} (hw : params.Wf) (hs : q.slots.length = params.queueCapacity) :
    QueueOk params q.clear :=
  ⟨⟨hs, hw.capacityPos, Nat.zero_le _, (Nat.zero_mod _).symm⟩, by simp⟩

/-- A read only takes an entry away (R213). -/
theorem QueueOk.read {params : Params} {q : Queue} (hq : QueueOk params q) :
    QueueOk params (q.read params.queueCapacity).1 := by
  refine ⟨hq.sound.read, fun e he => hq.entries e ?_⟩
  by_cases h0 : q.count = 0
  · rwa [Queue.read_empty h0] at he
  · rw [Queue.items_read hq.sound h0]
    exact List.mem_cons_of_mem _ he

/-! ### The state after reset -/

theorem vectors_wf : Params.vectors.Wf :=
  ⟨by decide, by decide, by decide, by decide⟩

/-- The state after reset is an idle parser over an array of the right size and an empty queue (R46). -/
theorem resetWith_inv {params : Params} (hw : params.Wf) : (State.resetWith params).Inv :=
  (inv_iff rfl).mpr ⟨hw, .idle (p := Parser.reset params) (by simp [Parser.reset]),
    .clear (q := Queue.reset params) hw (by simp [Queue.reset])⟩

/-- Settles O7: the idle parser and the empty queue of the state after reset, field by field. -/
theorem resetStateMeetsTheTable : Obligations.ResetStateMeetsTheTable := fun params =>
  ⟨rfl, Parser.reset_cleared params, rfl, rfl, rfl, Queue.items_reset _ params, rfl, rfl, rfl, rfl⟩

/-- Settles O8: the instance of spec/95 is one of the admitted ones. -/
theorem invariantHoldsAtReset : Obligations.InvariantHoldsAtReset :=
  ⟨fun _ hw => resetWith_inv hw, resetWith_inv vectors_wf⟩

/-! ### The invariant over the operations -/

/-- RESET establishes the registers' part of the invariant whatever they held before (R250, R251). -/
theorem execReset_inv {s t : State} (hi : s.Inv) (hn : execReset s = next t) : t.Inv := by
  cases hn
  exact (inv_iff rfl).mpr ⟨hi.params, .idle hi.paySize, .clear hi.params hi.slotSize⟩

theorem execQRead_inv {s t : State} (hi : s.Inv) (hn : execQRead s = next t) : t.Inv := by
  obtain ⟨hr, hn⟩ := whenReady_eq_next.mp hn
  cases hn
  obtain ⟨-, -, hq⟩ := (inv_iff hr).mp hi
  exact hi.setQueue hr hq.read _

/-- TX.SEND completes with the frame on SINK and its output, and nothing else (R233, R236). -/
theorem txSend_next {a c : Byte} {p : List Byte} {s t : State} (hn : txSend a c p s = next t) :
    t = { sinkBytes (frameBuffer s.params.maxEscaped a c p) s with result := .sent } := by
  unfold txSend at hn
  split at hn <;> cases hn
  rfl

/-- TX.SEND and TX.SEND1 write no register (R75). -/
theorem txSend_inv {a c : Byte} {p : List Byte} {s t : State} (hi : s.Inv)
    (hn : whenReady s (txSend a c p s) = next t) : t.Inv := by
  obtain ⟨-, hn⟩ := whenReady_eq_next.mp hn
  rw [txSend_next hn]
  exact (hi.setSink _).setResult _

/-- The operations at the ports keep the invariant (R10, R45). -/
theorem portOperation_inv {i : Instr} {s t : State} (hop : portOperation i = true) (hi : s.Inv)
    (hn : exec i s = next t) : t.Inv := by
  cases i with
  | rx b =>
    obtain ⟨hr, hn⟩ := whenReady_eq_next.mp hn
    exact rxByte_inv hr hi hn
  | qRead => exact execQRead_inv hi hn
  | txSend a c p => exact txSend_inv hi hn
  | txSend1 a c b => exact txSend_inv hi hn
  | crc8Update acc b => cases hn; exact hi.setResult _
  | crc8Calc bytes => cases hn; exact hi.setResult _
  | escape data => cases hn; exact hi.setResult _
  | reset => exact execReset_inv hi hn
  | _ => cases hop

/-- The arrival of bytes at port RX keeps the invariant, whichever row names them (R45, R99). -/
theorem arriving_inv {i : Instr} {s t : State} {bytes : List Byte} (ha : arrivingBytes s.p i = some bytes)
    (hi : s.Inv) (hn : exec i s = next t) : t.Inv := by
  obtain ⟨hr, ⟨b, -, hrx⟩ | hrun⟩ := exec_arriving ha hn
  · exact rxByte_inv hr hi hrx
  · exact rxs_inv hr hi hrun

/-- Settles O9: taking the word off the trace and each of the two ways to reach a port keep the invariant. -/
theorem stepKeepsInvariant : Obligations.StepKeepsInvariant := by
  intro s t hi hstep
  obtain ⟨-, rfl⟩ | ⟨i, rest, -, hport, hexec⟩ := step_eq_next.mp hstep
  · exact hi.setResult _
  have hi' := hi.setTrace rest
  obtain hop | ⟨bytes, hbytes⟩ := reachesPort_iff.mp hport
  · exact portOperation_inv hop hi' hexec
  · exact arriving_inv (s := { s with trace := rest }) hbytes hi' hexec

/-! ### The accumulator and the escape flag along a frame -/

/-- The raw bytes that a parser with this flag still has to pair: the marker it took, if any (R32, R135). -/
def pendingMarker (esc : Bool) : List Byte :=
  if esc then [wire.esc] else []

@[simp] theorem pendingMarker_true : pendingMarker true = [0xAB#8] := rfl
@[simp] theorem pendingMarker_false : pendingMarker false = [] := rfl

/-- An unpaired marker stands for no data byte (R135). -/
@[simp] theorem unescape_pendingMarker (esc : Bool) : unescape (pendingMarker esc) = [] := by
  cases esc <;> simp [unescape]

/-- A raw byte that yields a data byte is unescaped to it (R96, R135). -/
theorem unescape_data {esc : Bool} {b d : Byte} (h : dataOf esc b = some d) (rest : List Byte) :
    unescape (pendingMarker esc ++ b :: rest) = d :: unescape rest := by
  cases esc
  · simp only [dataOf, Bool.false_eq_true, if_false, Option.ite_none_left_eq_some, Option.some.injEq] at h
    obtain ⟨hb, rfl⟩ := h
    cases rest <;> simp [unescape, hb]
  · obtain rfl := Option.some.inj h
    simp [unescape, unmask]

/-- A raw byte that yields none is a marker, and is pending from then on (R96, R175). -/
theorem pendingMarker_of_no_data {esc : Bool} {b : Byte} (h : dataOf esc b = none) (rest : List Byte) :
    pendingMarker esc ++ b :: rest = pendingMarker true ++ rest := by
  cases esc <;> simp_all [dataOf]

/-- A raw byte that keeps the frame in progress either yields a data byte, which the CRC takes, or is a marker, which sets
the flag (R174 to R176, R30, R32). -/
theorem rxByte_inFrame {b : Byte} {s t : State} (hb : b ≠ 0xAA#8) (hs : s.p.st ≠ .waitStart)
    (hn : rxByte b s = next t) (ht : t.p.st ≠ .waitStart) :
    (dataOf s.p.esc b = none ∧ t.p.crc = s.p.crc ∧ t.p.esc = true) ∨
      ∃ d, dataOf s.p.esc b = some d ∧ t.p.crc = crc8Update s.p.crc d ∧ t.p.esc = false := by
  rw [rxByte, if_neg hb, if_neg hs] at hn
  split at hn
  · rename_i he
    obtain ⟨hcrc, hesc⟩ := dispatchData_crc (s := { s with p := { s.p with esc := false } }) hn hs ht
    exact .inr ⟨unmask b, if_pos he, hcrc, hesc⟩
  · rename_i he
    rw [Bool.not_eq_true] at he
    split at hn
    · rename_i hm
      cases hn
      exact .inl ⟨by simp [dataOf, he, hm], rfl, rfl⟩
    · rename_i hm
      obtain ⟨hcrc, hesc⟩ := dispatchData_crc hn hs ht
      exact .inr ⟨b, by simp [dataOf, he, hm], hcrc, hesc.trans he⟩

/-- Without a delimiter a parser outside a frame stays there (R173). -/
theorem rxs_stays_idle {bs : List Byte} {s t : State} (hs : s.p.st = .waitStart) (hb : 0xAA#8 ∉ bs)
    (hn : rxs bs s = next t) : t.p.st = .waitStart := by
  cases hn.symm.trans (Runs.idle hs hb)
  exact hs

/-- Along a frame that stays in progress the CRC takes some data bytes, and these are what the raw bytes unescape to,
behind the marker pending at the start and up to the one pending at the end, whatever follows (R30, R135). -/
theorem rxs_inFrame {raw : List Byte} : ∀ {s t : State}, s.p.st ≠ .waitStart → 0xAA#8 ∉ raw → rxs raw s = next t →
    t.p.st ≠ .waitStart → ∃ data : List Byte, t.p.crc = data.foldl crc8Update s.p.crc ∧
      ∀ rest, unescape (pendingMarker s.p.esc ++ (raw ++ rest)) = data ++ unescape (pendingMarker t.p.esc ++ rest) := by
  induction raw with
  | nil => intro s t _ _ hn _; cases hn; exact ⟨[], rfl, fun _ => rfl⟩
  | cons b raw ih =>
    intro s t hs hraw hn ht
    rw [List.mem_cons, not_or] at hraw
    obtain ⟨u, v, hbyte, hrest, rfl⟩ := rxs_cons_eq_next.mp hn
    have hu : u.p.st ≠ .waitStart := fun h => ht (rxs_stays_idle (t := v) h hraw.2 hrest)
    obtain ⟨data, hcrc, hdata⟩ := ih (t := v) hu hraw.2 hrest ht
    obtain ⟨hd, hc, he⟩ | ⟨d, hd, hc, he⟩ := rxByte_inFrame (Ne.symm hraw.1) hs hbyte hu
    · refine ⟨data, hc ▸ hcrc, fun rest => ?_⟩
      rw [List.cons_append, pendingMarker_of_no_data hd, ← he]
      exact hdata rest
    · refine ⟨d :: data, by rw [List.foldl_cons, ← hc]; exact hcrc, fun rest => ?_⟩
      rw [List.cons_append, unescape_data hd, List.cons_append]
      congr 1
      simpa [he] using hdata rest

/-- The byte 0x20 after the raw bytes tells whether a marker is pending (R96). -/
theorem unescape_pendingMarker_probe (esc : Bool) :
    unescape (pendingMarker esc ++ [0x20#8]) = [0x00#8] ↔ esc = true := by
  cases esc <;> simp [unescape, unmask]

/-- Settles O32: the delimiter clears the accumulator and the flag, and from there the frame's bytes are consumed as they
unescape. -/
theorem accumulatorIsChecksumOfConsumedBytes : Obligations.AccumulatorIsChecksumOfConsumedBytes := by
  intro s t raw _ _ hraw hn ht
  obtain ⟨u, v, hdelim, hrest, rfl⟩ := rxs_cons_eq_next.mp hn
  cases (rxByte_delim s).symm.trans hdelim
  obtain ⟨data, hcrc, hdata⟩ := rxs_inFrame (t := v) (by simp) hraw hrest ht
  simp only [frameStart_esc, pendingMarker_false, List.nil_append] at hdata
  have hall : unescape raw = data := by simpa using hdata []
  refine ⟨by rw [hall]; exact hcrc, ?_⟩
  rw [hdata, hall, List.append_cancel_left_eq, unescape_pendingMarker_probe]

/-! ### The queue as a list -/

/-- From sound registers a run on the list is the run on the registers, seen through `Q.items` (R40, R211, R213). -/
theorem runItems_items {capacity : Nat} (ops : List QueueOp) : ∀ {q : Queue}, q.Sound capacity →
    runItems capacity ops (q.items capacity) =
      ((Queue.run capacity ops q).1.items capacity, (Queue.run capacity ops q).2) := by
  induction ops with
  | nil => intro q _; rfl
  | cons op ops ih =>
    intro q hq
    cases op with
    | push e =>
      have hnext := ih (hq.push e)
      by_cases hfull : q.count = capacity
      · rw [Queue.push_full e hfull] at hnext
        simp [runItems, Queue.run, hfull, Queue.push_full, hnext]
      · rw [Queue.items_push hq e hfull] at hnext
        simp [runItems, Queue.run, hfull, hnext, Queue.push_room]
    | read =>
      have hnext := ih hq.read
      by_cases hempty : q.count = 0
      · have hnil : q.items capacity = [] := List.length_eq_zero_iff.mp (by simpa using hempty)
        rw [Queue.read_empty hempty, hnil] at hnext
        simp [runItems, Queue.run, Queue.read_empty hempty, hnil, hnext]
      · rw [Queue.items_read hq hempty]
        simp only [runItems, Queue.run, hnext]
        rw [Queue.read_some hempty]

/-- Settles O50: the run on the list is the run on the registers. -/
theorem circularBufferIsBoundedFifo : Obligations.CircularBufferIsBoundedFifo := by
  intro s ops hi hr
  rw [runItems_items ops ((hi.live hr).queueSound hi.slotSize)]
  exact ⟨rfl, rfl⟩

/-- Settles O51: the number of entries is `Q.count`, which the invariant bounds. -/
theorem statusOutputsCountTheEntries : Obligations.StatusOutputsCountTheEntries := by
  intro s hi hr
  have hlen : s.items.length = s.q.count := Queue.items_length _ _
  refine ⟨hlen.symm, ?_, ?_, hlen ▸ (hi.live hr).countBound⟩
  · rw [← List.length_eq_zero_iff, hlen, qEmpty, beq_iff_eq]
  · rw [hlen, qFull, beq_iff_eq]

/-! ### What an operation can have written -/

/-- The four ways an operation that completes writes the state (R22, R75): its output alone, the queue beside it, SINK
beside it, or the receive half. -/
inductive Effect (i : Instr) (s t : State) : Prop where
  /-- Only the output. -/
  | output (r : Result) (ht : t = { s with result := r })
  /-- The queue and the output. -/
  | queue (q : Queue) (r : Result) (hi : leavesQueue i = false) (ht : t = { s with q := q, result := r })
  /-- SINK at its end, and the output. -/
  | emit (bytes : List Byte) (r : Result) (hi : emitsOnSink i = true) (ht : t = { sinkBytes bytes s with result := r })
  /-- The parser, the output, and the queue where the row can complete a frame or clear it. -/
  | receive (hi : leavesParser i = false) (hq : leavesQueue i = true → t.q = s.q) (params : t.params = s.params)
      (ready : s.ready = true → t.ready = true) (sink : t.sink = s.sink) (trace : t.trace = s.trace)

/-- What is received writes the receive half only (R170, R75). -/
theorem Received.effect {i : Instr} {s t : State} (h : Received s t) (hi : leavesParser i = false)
    (hq : leavesQueue i = true → t.q = s.q) : Effect i s t :=
  .receive hi hq h.params (fun hr => h.ready.trans hr) h.sink h.trace

/-- A run of received bytes writes the receive half only (R106). -/
theorem Effect.of_rxs {i : Instr} {s t : State} {bytes : List Byte} (hn : rxs bytes s = next t)
    (hi : leavesParser i = false) (hq : leavesQueue i = true → t.q = s.q) : Effect i s t := by
  obtain ⟨hparams, hready, hsink, htrace⟩ := rxs_received hn
  exact .receive hi hq hparams (fun hr => hready.trans hr) hsink htrace

/-- A row of the decoding levels that completes has passed its guards (R14). -/
theorem row_next {s t : State} {c : Bool} {row : String} {o : Answer}
    (hn : whenReady s (whenSelected c row o) = next t) : o = next t :=
  (whenSelected_eq_next.mp (whenReady_eq_next.mp hn).2).2

theorem takeUnescaped_received {b : Byte} {s t : State} (hn : takeUnescaped b s = next t) : Received s t := by
  obtain ⟨hparams, hready, hsink, htrace, hevent⟩ := dispatchData_received hn
  exact ⟨hparams, hready, hsink, htrace, hevent⟩

/-- What each row of the table can have written, said once. -/
theorem exec_effect {i : Instr} {s t : State} (hn : exec i s = next t) : Effect i s t := by
  cases i
  case rx b | ack | nack | broadcast | master =>
    exact (rxByte_received (whenReady_eq_next.mp hn).2).effect rfl nofun
  case frame a c p | packet a c p =>
    obtain ⟨-, hn⟩ := whenReady_eq_next.mp hn
    split at hn
    · cases hn
    · exact .of_rxs hn rfl nofun
  case rxDelim =>
    cases (whenReady_eq_next.mp hn).2
    exact (received_report _ s _).effect rfl fun _ => rfl
  case rxIdle b | rxEsc | rxCmd d | rxLenLo d =>
    cases row_next hn
    exact (received_report _ s _).effect rfl fun _ => rfl
  case rxUnesc b => exact (takeUnescaped_received (row_next hn)).effect rfl nofun
  case rxData b => exact (dispatchData_received (row_next hn)).effect rfl nofun
  case rxAddr d =>
    obtain ⟨hr, hq, -⟩ := takeAddr_next (row_next hn)
    exact hr.effect rfl fun _ => hq
  case rxLenHi d =>
    obtain ⟨hr, hq, -⟩ := takeLenHigh_next (row_next hn)
    exact hr.effect rfl fun _ => hq
  case rxPayload d =>
    obtain ⟨hr, hq, -⟩ := takePayload_next (row_next hn)
    exact hr.effect rfl fun _ => hq
  case rxChecksum d => exact (takeChecksum_next (row_next hn)).1.effect rfl nofun
  case qRead =>
    cases (whenReady_eq_next.mp hn).2
    exact .queue _ _ rfl rfl
  case qPush cmd payload =>
    obtain ⟨-, -, -, ht⟩ := execQPush_next hn
    exact .queue _ _ rfl ht
  case txSend a c p => exact .emit _ _ rfl (txSend_next (whenReady_eq_next.mp hn).2)
  case txSend1 a c b => exact .emit _ _ rfl (txSend_next (whenReady_eq_next.mp hn).2)
  case crc8Update acc b | crc8Calc bytes | escape data =>
    cases hn
    exact .output _ rfl
  case reset =>
    cases hn
    exact .receive rfl nofun rfl (fun _ => rfl) rfl rfl
  case evNone | evFrameOk | evResync | evAddrSkip | evSizeViolation | evCrcFail | evQueueFull =>
    cases (whenReady_eq_next.mp hn).2
    exact .output _ rfl

/-- Settles O55: none of the four effects is on the parameters or the trace, and none clears the bit of R251. -/
theorem parametersNeverChange : Obligations.ParametersNeverChange := by
  intro i s t hn
  obtain ⟨r, rfl⟩ | ⟨q, r, -, rfl⟩ | ⟨bytes, r, -, rfl⟩ | ⟨-, -, hparams, hready, -, htrace⟩ := exec_effect hn
  · exact ⟨rfl, rfl, id⟩
  · exact ⟨rfl, rfl, id⟩
  · exact ⟨rfl, rfl, id⟩
  · exact ⟨hparams, htrace, hready⟩

/-- Settles O56: each half is written by the effects of its own rows only, and SINK at its end. -/
theorem halvesStayApart : Obligations.HalvesStayApart := by
  intro i s t hn
  obtain ⟨r, rfl⟩ | ⟨q, r, hi, rfl⟩ | ⟨bytes, r, hi, rfl⟩ | ⟨hi, hq, -, -, hsink, -⟩ := exec_effect hn
  · exact ⟨fun _ => rfl, fun _ => rfl, fun _ => rfl, List.prefix_rfl⟩
  · exact ⟨fun _ => rfl, by simp [hi], fun _ => rfl, List.prefix_rfl⟩
  · exact ⟨fun _ => rfl, fun _ => rfl, by simp [hi], List.prefix_append _ _⟩
  · exact ⟨by simp [hi], hq, fun _ => hsink, by rw [hsink]⟩

end Sys2Proof.Machine

/-! ## The address codes (spec/20_memory R61) -/

namespace Sys2Proof.Machine
open Host.Outcome

/-! ### A raw byte outside a frame and at the address -/

/-- Outside a frame a byte that is no delimiter passes without effect (R173). -/
theorem rxByte_of_waitStart {b : Byte} {s : State} (hb : b ≠ 0xAA#8) (hs : s.p.st = .waitStart) :
    rxByte b s = next { s with result := .event .evNone } := by
  rw [rxByte, if_neg hb, if_pos hs, ignoreByte, report_eq]

/-- In `ReadAddr` a byte that is neither delimiter nor marker, with the flag clear, is the address byte (R176). -/
theorem rxByte_of_readAddr {d : Byte} {s : State} (hd : d ≠ 0xAA#8) (hm : d ≠ 0xAB#8) (hs : s.p.st = .readAddr)
    (he : s.p.esc = false) : rxByte d s = takeAddr d s := by
  rw [rxByte_of_selectsData (by simp [selectsData, hd, hm, hs, he]), dispatchData, hs]

/-! ### The two outcomes of the address byte -/

/-- The address match (R177). -/
theorem addressMatches_iff {params : Params} {d : Byte} :
    addressMatches params d = true ↔ d = params.myAddr ∨ d = 0x00#8 := by
  simp [addressMatches]

/-- An address that matches is stored, fed to the CRC, and the command byte is next (R177). -/
theorem takeAddr_of_match {d : Byte} {s : State} (h : d = s.params.myAddr ∨ d = 0x00#8) :
    takeAddr d s = next { s with
      p := { s.p with crc := crc8Update s.p.crc d, addr := d, st := .readCmd }
      result := .event .evNone } := by
  rw [takeAddr, if_pos (addressMatches_iff.mpr h), report_eq]

/-- A foreign address ends the frame for this parser (R177, R187). -/
theorem takeAddr_of_foreign {d : Byte} {s : State} (h : ¬ (d = s.params.myAddr ∨ d = 0x00#8)) :
    takeAddr d s = next { s with p := idle s.p, result := .event .evAddrSkip } := by
  rw [takeAddr, if_neg (mt addressMatches_iff.mp h), report_eq]
  rfl

/-! ### The statement -/

/-- The code BROADCAST is the arrival of 0x00 (R61; log 12). -/
theorem exec_broadcast_of_ready {s : State} (hr : s.ready = true) : exec .broadcast s = rxByte 0x00#8 s :=
  whenReady_true hr _

/-- The code MASTER is the arrival of 0x01 (R61; log 12). -/
theorem exec_master_of_ready {s : State} (hr : s.ready = true) : exec .master s = rxByte 0x01#8 s :=
  whenReady_true hr _

/-- Settles O54: 0x00 meets the address match whatever MY_ADDR is, 0x01 exactly where MY_ADDR is 0x01. -/
theorem addressCodesAreMatched : Obligations.AddressCodesAreMatched := by
  intro s hr
  simp only [exec_rx_of_ready hr, exec_broadcast_of_ready hr, exec_master_of_ready hr]
  refine ⟨⟨trivial, trivial⟩, fun hs he => ⟨?broadcast, ?master⟩, fun hs => ⟨?_, ?_⟩⟩
  case broadcast =>
    rw [rxByte_of_readAddr (by decide) (by decide) hs he]
    exact takeAddr_of_match (.inr rfl)
  case master =>
    rw [rxByte_of_readAddr (by decide) (by decide) hs he]
    by_cases hm : s.params.myAddr = 0x01#8
    · exact ⟨_, takeAddr_of_match (.inl hm.symm), fun _ => ⟨rfl, rfl⟩, fun h => absurd hm h⟩
    · have foreign : ¬ (0x01#8 = s.params.myAddr ∨ 0x01#8 = 0x00#8) := by simp [Ne.symm hm]
      exact ⟨_, takeAddr_of_foreign foreign, fun h => absurd h hm, fun _ => ⟨rfl, rfl⟩⟩
  all_goals exact rxByte_of_waitStart (by decide) hs

end Sys2Proof.Machine

/-! ## The words: decoder and encoder (spec/30_encoding R107; log 2) -/

namespace Sys2Proof

/-! ### Running a reader -/

/-- A reader that succeeds hands its value on. -/
theorem bind_ok {α β : Type} {x : Except DecodeError α} {a : α} {f : α → Except DecodeError β} {r : β}
    (hx : x = .ok a) (hf : f a = .ok r) : (x >>= f) = .ok r := by
  rw [hx]
  exact hf

/-- Readers in sequence succeed exactly when each does. -/
theorem bind_eq_ok {α β : Type} {x : Except DecodeError α} {f : α → Except DecodeError β} {r : β} :
    (x >>= f) = .ok r ↔ ∃ a, x = .ok a ∧ f a = .ok r := by
  refine ⟨fun h => ?_, fun ⟨_, hx, hf⟩ => bind_ok hx hf⟩
  cases x with
  | error e => cases h
  | ok a => exact ⟨a, rfl, h⟩

theorem pure_eq_ok {α : Type} {a r : α} : (pure a : Except DecodeError α) = .ok r ↔ a = r :=
  ⟨Except.ok.inj, congrArg _⟩

/-! ### A word is a row that is read and is well formed -/

theorem decode_of_row {code selector : Byte} {ops rest : List Byte} {i : Instr}
    (hrow : decodeRow code selector ops = .ok (i, rest)) (hw : i.wf = true) :
    decode (code :: selector :: ops) = .ok (i, rest) :=
  bind_ok hrow (if_pos hw)

theorem row_of_decode {bytes rest : List Byte} {i : Instr} (h : decode bytes = .ok (i, rest)) :
    i.wf = true ∧
      ∃ code selector ops, bytes = code :: selector :: ops ∧ decodeRow code selector ops = .ok (i, rest) := by
  match bytes with
  | [] | [_] => cases h
  | code :: selector :: ops =>
    obtain ⟨r, hrow, hkeep⟩ := bind_eq_ok.mp h
    rw [keepWellFormed] at hkeep
    split at hkeep <;> cases hkeep
    exact ⟨‹_›, code, selector, ops, rfl, hrow⟩

/-- Settles O1: the selector leads to the row's readers, and each reader gives back what its writer wrote. -/
theorem decodeInvertsEncode : Obligations.DecodeInvertsEncode := by
  intro i rest hw
  cases i with
  | txSend a c p => exact decode_of_row (bind_ok rfl (bind_ok rfl (bind_ok (readMarked_markedBytes p rest) rfl))) hw
  | crc8Calc bytes => exact decode_of_row (bind_ok (readMarked_markedBytes bytes rest) rfl) hw
  | escape data => exact decode_of_row (bind_ok (readMarked_markedBytes data rest) rfl) hw
  | qPush cmd payload => exact decode_of_row (bind_ok rfl (bind_ok (readMarked_markedBytes payload rest) rfl)) hw
  | frame a c p =>
    have counted := readCounted_countedBytes p rest (of_decide_eq_true hw)
    exact decode_of_row (bind_ok rfl (bind_ok rfl (bind_ok counted rfl))) hw
  | packet a c p =>
    have counted := readCounted_countedBytes p rest (of_decide_eq_true hw)
    exact decode_of_row (bind_ok rfl (bind_ok counted rfl)) hw
  | _ => exact decode_of_row rfl hw

/-! ### The word that a selector's decoder accepts -/

section
variable {code : Byte} {ops rest : List Byte} {i : Instr}

theorem decodePlain_word (h : decodePlain code ops = .ok (i, rest)) : encode i ++ rest = code :: 0 :: ops := by
  unfold decodePlain at h
  split at h <;> rename_i hcode <;>
    simp only [bind_eq_ok, pure_eq_ok, Prod.exists, readByte_eq_ok, readMarked_eq_ok, Prod.mk.injEq, reduceCtorEq] at h
  all_goals obtain ⟨-, rfl⟩ := BitVec.toNat_eq_nat.mp hcode
  case h_1 => obtain ⟨b, _, rfl, rfl, rfl⟩ := h; rfl
  case h_3 => obtain ⟨a, _, rfl, c, _, rfl, p, _, rfl, rfl, rfl⟩ := h; rfl
  case h_4 => obtain ⟨acc, _, rfl, b, _, rfl, rfl, rfl⟩ := h; rfl
  case h_5 => obtain ⟨data, _, rfl, rfl, rfl⟩ := h; rfl
  all_goals obtain ⟨rfl, rfl⟩ := h; rfl

theorem decodeSecond_word (h : decodeSecond code ops = .ok (i, rest)) : encode i ++ rest = code :: 1 :: ops := by
  unfold decodeSecond at h
  split at h <;> rename_i hcode <;>
    simp only [bind_eq_ok, pure_eq_ok, Prod.exists, readByte_eq_ok, readMarked_eq_ok, Prod.mk.injEq, reduceCtorEq] at h
  all_goals obtain ⟨-, rfl⟩ := BitVec.toNat_eq_nat.mp hcode
  · obtain ⟨a, _, rfl, c, _, rfl, b, _, rfl, rfl, rfl⟩ := h; rfl
  · obtain ⟨bytes, _, rfl, rfl, rfl⟩ := h; rfl

theorem decodeInternal_word (h : decodeInternal code ops = .ok (i, rest)) : encode i ++ rest = code :: 2 :: ops := by
  unfold decodeInternal at h
  split at h <;> rename_i hcode <;>
    simp only [bind_eq_ok, pure_eq_ok, Prod.exists, readByte_eq_ok, readMarked_eq_ok, Prod.mk.injEq, reduceCtorEq] at h
  obtain ⟨-, rfl⟩ := BitVec.toNat_eq_nat.mp hcode
  obtain ⟨cmd, _, rfl, payload, _, rfl, rfl, rfl⟩ := h
  rfl

theorem decodeFrame_word (h : decodeFrame code ops = .ok (i, rest)) : encode i ++ rest = code :: 12 :: ops := by
  unfold decodeFrame at h
  split at h
  · rename_i hcode
    simp only [bind_eq_ok, pure_eq_ok, Prod.exists, readByte_eq_ok, Prod.mk.injEq] at h
    obtain ⟨a, _, rfl, c, _, rfl, p, _, hp, rfl, rfl⟩ := h
    obtain ⟨-, rfl⟩ := readCounted_word hp
    rw [hcode]
    rfl
  · cases h

theorem decodePacket_word (h : decodePacket code ops = .ok (i, rest)) : encode i ++ rest = code :: 13 :: ops := by
  simp only [decodePacket, bind_eq_ok, pure_eq_ok, Prod.exists, readByte_eq_ok, Prod.mk.injEq] at h
  obtain ⟨c, _, rfl, p, _, hp, rfl, rfl⟩ := h
  obtain ⟨-, rfl⟩ := readCounted_word hp
  rfl

theorem decodeAddressCode_word (h : decodeAddressCode code ops = .ok (i, rest)) :
    encode i ++ rest = code :: 14 :: ops := by
  unfold decodeAddressCode at h
  split at h <;> rename_i hcode <;> cases h <;> obtain ⟨-, rfl⟩ := BitVec.toNat_eq_nat.mp hcode <;> rfl

theorem decodeEventCode_word (h : decodeEventCode code ops = .ok (i, rest)) :
    encode i ++ rest = code :: 15 :: ops := by
  unfold decodeEventCode at h
  split at h <;> rename_i hcode <;> cases h <;> obtain ⟨-, rfl⟩ := BitVec.toNat_eq_nat.mp hcode <;> rfl

/-- Whatever the selector, only the word of the row is accepted. -/
theorem decodeRow_word {selector : Byte} (h : decodeRow code selector ops = .ok (i, rest)) :
    encode i ++ rest = code :: selector :: ops := by
  unfold decodeRow at h
  split at h <;> rename_i hselector
  case h_17 => cases h
  all_goals obtain ⟨-, rfl⟩ := BitVec.toNat_eq_nat.mp hselector
  case h_1 => exact decodePlain_word h
  case h_2 => exact decodeSecond_word h
  case h_3 => exact decodeInternal_word h
  case h_13 => exact decodeFrame_word h
  case h_14 => exact decodePacket_word h
  case h_15 => exact decodeAddressCode_word h
  case h_16 => exact decodeEventCode_word h
  all_goals cases h; rfl

end

/-- Settles O2: decoding keeps well-formed rows only, and each row is read from its own word only. -/
theorem decodedBytesAreTheWord : Obligations.DecodedBytesAreTheWord := by
  intro bytes i rest h
  obtain ⟨hw, code, selector, ops, rfl, hrow⟩ := row_of_decode h
  exact ⟨hw, decodeRow_word hrow⟩

end Sys2Proof

/-! ## What travels on the wire (spec/30_encoding R90 to R94, R104) -/

namespace Sys2Proof.Machine
open Host.Outcome

/-! ### The packet and the frame -/

/-- A run does not depend on the output of the operation before it. -/
theorem Runs.setResult {bs : List Byte} {s t : State} {es : List Event} (h : Runs bs s t es) (r : Result) :
    Runs bs { s with result := r } t es :=
  (rxs_result bs s r).trans h

/-- PACKET is the run of the escaped packet's bytes (R90, R94; log 11). -/
theorem exec_packet_of_runs {a c : Byte} {p : List Byte} {s t : State} {es : List Event} (hr : s.ready = true)
    (hp : p.length ≤ maxLength) (hrun : Runs (stuff (packet a c p)) s t es) :
    exec (.packet a c p) s = next { t with result := .events es } :=
  (whenReady_true hr _).trans ((if_neg (by omega)).trans hrun)

/-- RX.DELIM on an instance in use is RX of the delimiter (R171). -/
theorem exec_rxDelim_of_ready {s : State} (hr : s.ready = true) : exec .rxDelim s = rxByte 0xAA#8 s :=
  whenReady_true hr _

/-- A delimiter, then a run of a packet's bytes, is a run of its frame (R93). -/
theorem Runs.frame_of_packet {a c : Byte} {p : List Byte} {s t : State} {es : List Event}
    (h : Runs (stuff (packet a c p)) { s with p := frameStart s.p } t es) :
    Runs (frame a c p) s t ((if s.p.st = .waitStart then .evNone else .evResync) :: es) :=
  .cons (rxByte_delim s) h

/-- Settles O29: the packet's bytes run from any state with the invariant, so also from the one the delimiter leads to,
and there they are the rest of the frame. -/
theorem packetIsFrameWithoutDelimiter : Obligations.PacketIsFrameWithoutDelimiter := by
  intro s a c p hi hr hp
  constructor
  · obtain ⟨t, es, hrun, hlen⟩ := Runs.total hr hi
    exact ⟨_, es, exec_packet_of_runs hr hp hrun, rfl, hlen⟩
  · have hdelim := rxByte_delim s
    have hi' : ({ s with p := frameStart s.p } : State).Inv := (rxByte_inv hr hi hdelim).setResult s.result
    obtain ⟨u, es, hrun, -⟩ := Runs.total (s := { s with p := frameStart s.p }) hr hi'
    exact ⟨_, _, _, es, (exec_rxDelim_of_ready hr).trans hdelim, rfl,
      exec_packet_of_runs hr hp (hrun.setResult _), rfl, exec_frame_of_runs hr hp hrun.frame_of_packet⟩

/-- Settles O40: the three forms of a unit, and the frame as the serializer defines it. -/
theorem stuffingReplacesReservedBytes : Obligations.StuffingReplacesReservedBytes := by
  refine ⟨stuff_nil, fun v rest => ?_, fun _ _ _ => rfl⟩
  rw [stuff_cons]
  obtain ⟨rfl, hunit⟩ | ⟨rfl, hunit⟩ | ⟨hdelim, hesc, hunit⟩ := escapeUnit_cases v
  · rw [hunit]; rfl
  · rw [hunit]; rfl
  · rw [hunit, if_neg hdelim, if_neg hesc]; rfl

/-! ### The command codes -/

/-- In `ReadCmd` a byte that is neither delimiter nor marker, with the flag clear, is the command byte (R176). -/
theorem rxByte_of_readCmd {d : Byte} {s : State} (hd : d ≠ 0xAA#8) (hm : d ≠ 0xAB#8) (hs : s.p.st = .readCmd)
    (he : s.p.esc = false) : rxByte d s = takeCmd d s := by
  rw [rxByte_of_selectsData (by simp [selectsData, hd, hm, hs, he]), dispatchData, hs]

/-- A command code is the arrival of its byte, which is neither the delimiter nor the marker (R104; log 12). -/
theorem exec_commandCode {s : State} (hr : s.ready = true) {row : Instr × Byte}
    (hrow : row ∈ [(Instr.ack, 0xEE#8), (.nack, 0xFF#8)]) :
    exec row.1 s = rxByte row.2 s ∧ row.2 ≠ 0xAA#8 ∧ row.2 ≠ 0xAB#8 := by
  simp only [List.mem_cons, List.not_mem_nil, or_false] at hrow
  obtain rfl | rfl := hrow <;> exact ⟨whenReady_true hr _, by decide, by decide⟩

/-- Settles O53: both bytes are plain ones, so each is the command byte in `ReadCmd` and passes outside a frame. -/
theorem commandCodesAreOpaque : Obligations.CommandCodesAreOpaque := by
  intro s hr row hrow
  obtain ⟨hexec, hdelim, hesc⟩ := exec_commandCode hr hrow
  rw [hexec]
  refine ⟨(exec_rx_of_ready hr).symm, fun hs he => ?_, fun hs => rxByte_of_waitStart hdelim hs⟩
  rw [rxByte_of_readCmd hdelim hesc hs he, takeCmd, report_eq]

end Sys2Proof.Machine

/-! ## The framing codec (spec/40_framing_codec R131 to R135) -/

namespace Sys2Proof.Machine

/-! ### The bytes of the escaped form -/

/-- A unit holds no delimiter: a reserved byte shows only under the mask (R94, R134 a). -/
theorem delim_not_mem_escapeUnit (v : Byte) : 0xAA#8 ∉ escapeUnit v := by
  obtain ⟨-, hunit⟩ | ⟨-, hunit⟩ | ⟨hdelim, -, hunit⟩ := escapeUnit_cases v
  · rw [hunit]; decide
  · rw [hunit]; decide
  · rw [hunit, List.mem_singleton]; exact hdelim.symm

theorem delim_not_mem_stuff (data : List Byte) : 0xAA#8 ∉ stuff data := fun h => by
  obtain ⟨v, -, hv⟩ := List.mem_flatMap.mp h
  exact delim_not_mem_escapeUnit v hv

/-- A unit is one byte that is no marker, or the marker and a masked reserved byte (R94). -/
theorem escapeUnit_single_or_pair (v : Byte) :
    (v ≠ 0xAB#8 ∧ escapeUnit v = [v]) ∨ ∃ x, (x = 0x8A#8 ∨ x = 0x8B#8) ∧ escapeUnit v = [0xAB#8, x] := by
  obtain ⟨-, hunit⟩ | ⟨-, hunit⟩ | ⟨-, hesc, hunit⟩ := escapeUnit_cases v
  · exact .inr ⟨_, .inl rfl, hunit⟩
  · exact .inr ⟨_, .inr rfl, hunit⟩
  · exact .inl ⟨hesc, hunit⟩

/-- Behind every marker of an escaped list stands a masked reserved byte (R134 b). A masked byte is itself no marker, so
this holds whatever stands before the marker. -/
theorem stuff_marker_followed {data pre rest : List Byte} (h : stuff data = pre ++ 0xAB#8 :: rest) :
    ∃ x more, rest = x :: more ∧ (x = 0x8A#8 ∨ x = 0x8B#8) := by
  induction data generalizing pre with
  | nil => simp at h
  | cons v data ih =>
    obtain ⟨hesc, hunit⟩ | ⟨x, hx, hunit⟩ := escapeUnit_single_or_pair v
    · rw [stuff_cons, hunit] at h
      match pre, h with
      | [], h => exact absurd (List.cons.inj h).1 hesc
      | _ :: pre, h => exact ih (List.cons.inj h).2
    · rw [stuff_cons, hunit] at h
      match pre, h with
      | [], h => exact ⟨x, stuff data, (List.cons.inj h).2.symm, hx⟩
      | [_], h => obtain rfl | rfl := hx <;> simp at h
      | _ :: _ :: pre, h => exact ih (List.cons.inj (List.cons.inj h).2).2

/-- A unit is one byte longer than its byte exactly when the byte is reserved (R132). -/
theorem escapeUnit_length_eq (v : Byte) :
    (escapeUnit v).length = 1 + if v = 0xAA#8 ∨ v = 0xAB#8 then 1 else 0 := by
  obtain ⟨hv, hunit⟩ | ⟨hv, hunit⟩ | ⟨hdelim, hesc, hunit⟩ := escapeUnit_cases v
  · rw [hunit, if_pos (.inl hv)]; rfl
  · rw [hunit, if_pos (.inr hv)]; rfl
  · rw [hunit, if_neg (not_or.mpr ⟨hdelim, hesc⟩)]; rfl

/-- Escaping adds one byte for each reserved one (R132). -/
theorem stuff_length (data : List Byte) :
    (stuff data).length = data.length + data.countP (fun v => v = 0xAA#8 ∨ v = 0xAB#8) := by
  induction data with
  | nil => rfl
  | cons v data ih =>
    simp only [stuff_cons, List.length_append, escapeUnit_length_eq, ih, List.length_cons, List.countP_cons,
      decide_eq_true_eq]
    omega

/-! ### Unescaping and the cut -/

/-- Unescaping takes an escaped list apart unit by unit (R134 e, R135). -/
theorem unescape_stuff : Function.LeftInverse unescape stuff := by
  intro data
  induction data with
  | nil => rfl
  | cons v data ih => rw [stuff_cons, unescape_escapeUnit, ih]

/-- The cut of `escape` itself: `escapeInto_cut` from an empty output (R131, R133). -/
theorem escape_cut (m : Nat) (data : List Byte) :
    ∃ k, k ≤ data.length ∧ (escape m data).1 = stuff (data.take k) ∧ (escape m data).1.length ≤ m ∧
      ((escape m data).2 = true ↔ k < data.length) ∧ (k < data.length → m < (stuff (data.take (k + 1))).length) :=
  escapeInto_cut m data [] (Nat.zero_le m)

/-- Nothing is cut off exactly when the whole escaped list fits (R133, R235). -/
theorem escape_whole_iff {m : Nat} {data : List Byte} :
    (escape m data).2 = false ↔ (stuff data).length ≤ m := by
  refine ⟨fun hwhole => ?_, fun hfits => by rw [escape_fits hfits]⟩
  obtain ⟨k, -, hout, hlen, htrunc, -⟩ := escape_cut m data
  have hk : data.length ≤ k := not_lt.mp fun hlt => by simp [htrunc.mpr hlt] at hwhole
  rwa [hout, List.take_of_length_le hk] at hlen

/-! ### The statements -/

/-- Settles O39: ESCAPE completes with the output of `escape`, which cuts where the next unit does not fit. -/
theorem escapeCutsBeforeFirstUnitThatDoesNotFit : Obligations.EscapeCutsBeforeFirstUnitThatDoesNotFit := by
  intro s data
  obtain ⟨k, hk, hout, hlen, htrunc, hcut⟩ := escape_cut s.params.maxEscaped data
  exact ⟨_, _, k, rfl, hk, hout, hlen, htrunc, hcut, escape_whole_iff⟩

/-- Settles O41: no unit holds the delimiter, every marker begins a pair, and a pair stands for each reserved byte. -/
theorem escapedOutputHasNoDelimiter : Obligations.EscapedOutputHasNoDelimiter := by
  refine fun data => ⟨delim_not_mem_stuff data, ?_, stuff_length data⟩
  rintro pre post h v rest rfl rfl -
  exact stuff_marker_followed h

/-- Settles O42: `unescape` undoes `stuff`, so `stuff` is injective. -/
theorem unescapeInvertsEscape : Obligations.UnescapeInvertsEscape :=
  ⟨unescape_stuff, stuff_split, fun _ _ h => unescape_stuff.injective h⟩

end Sys2Proof.Machine

/-! ## The CRC8 engine (spec/41_crc8 R150 to R156) -/

namespace Sys2Proof.Machine
open Host.Outcome

/-! ### One round -/

/-- A round shifts, and adds `CRC_POLY` when a bit falls out (R150). -/
theorem crc8Round_eq_xor (a : Byte) : crc8Round a = (a <<< 1) ^^^ (if a.msb then 0x07#8 else 0x00#8) := by
  unfold crc8Round
  split <;> simp

/-- A bit falls out of the shift exactly when the value is at least 128. -/
theorem crc8Round_eq_ite (a : Byte) :
    crc8Round a = if a.toNat < 128 then a <<< 1 else (a <<< 1) ^^^ 0x07#8 := by
  have hmsb : a.msb = true ↔ ¬ a.toNat < 128 := by simp [BitVec.msb_eq_decide]
  rw [crc8Round, ite_cond_congr (propext hmsb), ite_not]

/-- The bit that falls out is kept as bit 0, because `CRC_POLY` is odd. -/
theorem crc8Round_getLsbD_zero (a : Byte) : (crc8Round a).getLsbD 0 = a.msb := by
  rw [crc8Round_eq_xor]
  cases a.msb <;> simp

/-- A byte is its top bit and what a shift leaves of it. -/
theorem eq_of_msb_of_shiftLeft_one {a b : Byte} (hmsb : a.msb = b.msb) (hshift : a <<< 1 = b <<< 1) : a = b := by
  rw [BitVec.msb_eq_decide, BitVec.msb_eq_decide, decide_eq_decide] at hmsb
  bv_omega

/-- Bit 0 of a round tells whether `CRC_POLY` was added, so a round can be undone (R156). -/
theorem crc8Round_injective : Function.Injective crc8Round := by
  intro a b h
  have hmsb : a.msb = b.msb := by rw [← crc8Round_getLsbD_zero a, h, crc8Round_getLsbD_zero]
  have hshift : a <<< 1 = b <<< 1 := by
    rw [crc8Round_eq_xor, crc8Round_eq_xor, hmsb] at h
    exact (BitVec.xor_left_inj _).mp h
  exact eq_of_msb_of_shiftLeft_one hmsb hshift

/-! ### One update -/

theorem crc8Update_eq_iterate (acc b : Byte) : crc8Update acc b = crc8Round^[8] (acc ^^^ b) := rfl

/-- An update commutes with exclusive-or, since each of its rounds does (R156). -/
theorem crc8Update_xor (a a' b b' : Byte) :
    crc8Update (a ^^^ a') (b ^^^ b') = crc8Update a b ^^^ crc8Update a' b' := by
  have hswap : (a ^^^ a') ^^^ (b ^^^ b') = (a ^^^ b) ^^^ (a' ^^^ b') := by ac_rfl
  simp only [crc8Update_eq_iterate, hswap]
  exact Function.Semiconj₂.iterate crc8Round_xor 8 _ _

theorem crc8Update_injective_left (b : Byte) : Function.Injective (crc8Update · b) :=
  fun _ _ h => (BitVec.xor_left_inj _).mp (crc8Round_injective.iterate 8 h)

theorem crc8Update_injective_right (acc : Byte) : Function.Injective (crc8Update acc) :=
  fun _ _ h => (BitVec.xor_right_inj _).mp (crc8Round_injective.iterate 8 h)

/-- An accumulator that takes its own value becomes 0x00 (R152). -/
theorem crc8Update_self (acc : Byte) : crc8Update acc acc = 0x00#8 := by
  rw [crc8Update_eq, BitVec.xor_self]
  decide

/-! ### Lists -/

/-- Different accumulators stay different over equal bytes (R156). -/
theorem foldl_crc8Update_injective (m : List Byte) : Function.Injective (m.foldl crc8Update) := by
  induction m with
  | nil => exact Function.injective_id
  | cons b m ih => exact ih.comp (crc8Update_injective_left b)

/-- The checksums of two lists of equal length add up, from any two accumulators (R156). -/
theorem foldl_crc8Update_zipWith_xor {m m' : List Byte} (h : m.length = m'.length) (acc acc' : Byte) :
    (List.zipWith (· ^^^ ·) m m').foldl crc8Update (acc ^^^ acc') =
      m.foldl crc8Update acc ^^^ m'.foldl crc8Update acc' := by
  induction m generalizing m' acc acc' with
  | nil => rw [List.eq_nil_of_length_eq_zero h.symm]; rfl
  | cons b m ih =>
    obtain ⟨b', m', rfl⟩ := List.exists_cons_of_length_eq_add_one h.symm
    rw [List.zipWith_cons_cons, List.foldl_cons, crc8Update_xor]
    exact ih (Nat.succ.inj h) _ _

/-! ### Remainders modulo the generator -/

open Polynomial

/-- A round multiplies by `x`, up to the generator where `CRC_POLY` was added (R151). -/
theorem bytePoly_crc8Round (a : Byte) :
    bytePoly (crc8Round a) = bytePoly a * X + (if a.msb then generator else 0) := by
  have hpoly : bytePoly 0x07#8 = X ^ 2 + X + 1 := by
    simp [bytePoly, Finset.sum_range_succ]; ring
  rw [crc8Round_eq_xor, bytePoly_xor, bytePoly_shift]
  cases a.msb
  · simp [bytePoly]
  · simp only [if_true, hpoly, generator]; ring

theorem mk_bytePoly_crc8Round (a : Byte) :
    AdjoinRoot.mk generator (bytePoly (crc8Round a)) = AdjoinRoot.mk generator (bytePoly a * X) := by
  rw [bytePoly_crc8Round, map_add]
  split <;> simp

theorem mk_bytePoly_iterate_crc8Round (n : Nat) (a : Byte) :
    AdjoinRoot.mk generator (bytePoly (crc8Round^[n] a)) = AdjoinRoot.mk generator (bytePoly a * X ^ n) := by
  induction n with
  | zero => simp
  | succ n ih => rw [Function.iterate_succ_apply', mk_bytePoly_crc8Round, map_mul, ih, ← map_mul, mul_assoc, pow_succ]

/-- An update multiplies the sum of its operands by `x^8`, modulo the generator (R151). -/
theorem mk_bytePoly_crc8Update (acc b : Byte) :
    AdjoinRoot.mk generator (bytePoly (crc8Update acc b)) =
      AdjoinRoot.mk generator ((bytePoly acc + bytePoly b) * X ^ 8) := by
  rw [crc8Update_eq_iterate, mk_bytePoly_iterate_crc8Round, bytePoly_xor]

/-- The checksum is the list's polynomial times `x^8`, modulo the generator (R151, R152). -/
theorem mk_bytePoly_crc8 (m : List Byte) :
    AdjoinRoot.mk generator (bytePoly (crc8 m)) = AdjoinRoot.mk generator (listPoly m * X ^ 8) := by
  induction m using List.reverseRecOn with
  | nil => simp [crc8, bytePoly, listPoly]
  | append_singleton m b ih =>
    rw [crc8_snoc, mk_bytePoly_crc8Update, listPoly_snoc, map_mul, map_add, ih, ← map_add, ← map_mul]

/-- A byte's polynomial has degree below 8, so the byte is determined as the remainder by its class alone. -/
theorem bytePoly_eq_modByMonic {b : Byte} {p : Polynomial (ZMod 2)}
    (h : AdjoinRoot.mk generator (bytePoly b) = AdjoinRoot.mk generator p) : bytePoly b = p %ₘ generator := by
  have hdeg : (bytePoly b).degree < generator.degree := by
    rw [degree_eq_natDegree generator_monic.ne_zero, generator_natDegree]
    exact bytePoly_degree_lt b
  rw [← modByMonic_eq_of_dvd_sub generator_monic (AdjoinRoot.mk_eq_mk.mp h)]
  exact ((modByMonic_eq_self_iff generator_monic).mpr hdeg).symm

/-! ### The operations -/

theorem exec_crc8Update (acc b : Byte) (s : State) :
    exec (.crc8Update acc b) s = next { s with result := .byte (crc8Update acc b) } := rfl

theorem exec_crc8Calc (bytes : List Byte) (s : State) :
    exec (.crc8Calc bytes) s = next { s with result := .byte (crc8 bytes) } := rfl

/-! ### The statements -/

/-- Settles O33: both operations complete in every state, and their loop body is `crc8Round`. -/
theorem crcOperationsArePure : Obligations.CrcOperationsArePure := by
  intro s acc b bytes round update
  have hround : round = crc8Round := funext fun a => (crc8Round_eq_ite a).symm
  have hupdate : update = crc8Update := funext₂ fun x y => by simp only [update, hround, crc8Update_eq_iterate]
  rw [hupdate]
  exact ⟨exec_crc8Update acc b s, exec_crc8Calc bytes s⟩

/-- Settles O34: the fold of R152 takes the last byte by one update. -/
theorem oneShotAgreesWithIncremental : Obligations.OneShotAgreesWithIncremental := fun s m b =>
  ⟨crc8 m, exec_crc8Calc m s, by rw [exec_crc8Calc, exec_crc8Update, crc8_snoc], exec_crc8Calc [] s⟩

/-- Settles O35: each side has the same class modulo the generator, and the left one is already reduced. -/
theorem checksumIsPolynomialRemainder : Obligations.ChecksumIsPolynomialRemainder :=
  ⟨fun m => bytePoly_eq_modByMonic (mk_bytePoly_crc8 m),
    fun acc b => bytePoly_eq_modByMonic (mk_bytePoly_crc8Update acc b)⟩

/-- Settles O36: rounds are linear, so updates are, and so are folds of them from 0x00. -/
theorem checksumIsLinear : Obligations.ChecksumIsLinear :=
  ⟨crc8Update_xor, fun _ _ h => foldl_crc8Update_zipWith_xor h 0x00#8 0x00#8⟩

/-- Settles O37: the update at the changed byte separates the accumulators, and the bytes behind it keep them apart. -/
theorem singleByteChangeIsDetected : Obligations.SingleByteChangeIsDetected := by
  intro pre post b b' hne h
  rw [crc8_append, crc8_append] at h
  exact hne (crc8Update_injective_right _ (foldl_crc8Update_injective post h))

/-- Settles O38: the last update takes the accumulator's own value. -/
theorem checksumResidueIsZero : Obligations.ChecksumResidueIsZero := fun m => by
  rw [crc8_snoc, crc8Update_self]

end Sys2Proof.Machine

/-! ## The packet parser (spec/42_packet_parser R170 to R190) -/

namespace Sys2Proof.Machine
open Host.Outcome

/-! ### The first decoding level -/

/-- A row of the decoding levels that is selected, on an instance in use, is its step (R14, R99). -/
theorem row_of_selected {s : State} {c : Bool} {row : String} {o : Answer} (hr : s.ready = true) (hc : c = true) :
    whenReady s (whenSelected c row o) = o := by
  rw [whenReady_true hr, whenSelected_eq, if_pos hc]

/-- RX of a byte is the row of its class (R99, R170). -/
theorem exec_rx_eq_classRow {b : Byte} {s : State} (hr : s.ready = true) : exec (.rx b) s = exec (classRow s.p b) s :=
  (exec_rx_of_ready hr).trans (exec_classRow hr).symm

theorem classRow_of_waitStart {p : Parser} {b : Byte} (hb : b ≠ 0xAA#8) (hs : p.st = .waitStart) :
    classRow p b = .rxIdle b := by
  rw [classRow, if_neg hb, if_pos hs]

theorem classRow_of_flag {p : Parser} {b : Byte} (hb : b ≠ 0xAA#8) (hs : p.st ≠ .waitStart) (he : p.esc = true) :
    classRow p b = .rxUnesc b := by
  rw [classRow, if_neg hb, if_neg hs, if_pos he]

theorem classRow_of_marker {p : Parser} (hs : p.st ≠ .waitStart) (he : p.esc = false) :
    classRow p 0xAB#8 = .rxEsc := by
  rw [classRow, if_neg (by decide), if_neg hs, if_neg (by simp [he]), if_pos rfl]

theorem classRow_of_plain {p : Parser} {b : Byte} (hb : b ≠ 0xAA#8) (hm : b ≠ 0xAB#8) (hs : p.st ≠ .waitStart)
    (he : p.esc = false) : classRow p b = .rxData b := by
  rw [classRow, if_neg hb, if_neg hs, if_neg (by simp [he]), if_neg hm]

/-- In a frame the byte that yields a data byte is that data byte taken with the flag clear (R96, R174, R176). -/
theorem rxByte_of_data {b d : Byte} {s : State} (hb : b ≠ 0xAA#8) (hs : s.p.st ≠ .waitStart)
    (hd : dataOf s.p.esc b = some d) : rxByte b s = dispatchData d { s with p := { s.p with esc := false } } := by
  cases he : s.p.esc with
  | true =>
    rw [he] at hd
    obtain rfl := Option.some.inj hd
    rw [rxByte, if_neg hb, if_neg hs, if_pos he]
    rfl
  | false =>
    rw [he, dataOf, if_neg Bool.false_ne_true, Option.ite_none_left_eq_some] at hd
    obtain ⟨hm, hd⟩ := hd
    obtain rfl := Option.some.inj hd
    rw [rxByte_of_selectsData (by simp [selectsData, hb, hm, hs, he]), ← he]

/-- In a frame the byte that yields none is a marker (R96, R175). -/
theorem rxByte_of_no_data {b : Byte} {s : State} (hb : b ≠ 0xAA#8) (hs : s.p.st ≠ .waitStart)
    (hd : dataOf s.p.esc b = none) : rxByte b s = takeMarker s := by
  obtain ⟨he, hm⟩ : s.p.esc = false ∧ b = 0xAB#8 := by
    cases he : s.p.esc <;> simp_all [dataOf]
  rw [rxByte, if_neg hb, if_neg hs, if_neg (by simp [he]), if_pos hm]

/-- No data byte arises outside a frame (R176). -/
theorem inFrame_of_dataRow {p : Parser} {d : Byte} {row : Instr} (h : dataRow p d = some row) : p.st ≠ .waitStart := by
  intro hs
  rw [dataRow, hs] at h
  cases h

/-- The row of the data byte that a raw byte yields, with the flag clear, is what RX of the raw byte does (R174, R176). -/
theorem exec_dataRow_eq_rxByte {b d : Byte} {s : State} {row : Instr} (hr : s.ready = true) (hb : b ≠ 0xAA#8)
    (hd : dataOf s.p.esc b = some d) (hrow : dataRow s.p d = some row) :
    exec row { s with p := { s.p with esc := false } } = rxByte b s := by
  rw [rxByte_of_data hb (inFrame_of_dataRow hrow) hd]
  exact exec_dataRow (s := { s with p := { s.p with esc := false } }) hr hrow

/-- Settles O11: RX.DELIM is RX of the delimiter, which wins in every state. -/
theorem delimiterRestartsFrame : Obligations.DelimiterRestartsFrame := fun s hr =>
  ⟨(exec_rxDelim_of_ready hr).trans (rxByte_delim s), (exec_rx_of_ready hr).trans (exec_rxDelim_of_ready hr).symm⟩

/-- Settles O12: the class of the byte is RX.IDLE, and RX ignores it. -/
theorem idleParserIgnoresBytes : Obligations.IdleParserIgnoresBytes := by
  intro s b hr hs hb
  have hrow := exec_rx_eq_classRow (b := b) hr
  rw [classRow_of_waitStart hb hs] at hrow
  exact ⟨hrow.symm.trans ((exec_rx_of_ready hr).trans (rxByte_of_waitStart hb hs)), hrow⟩

/-- Settles O13: the class of the marker is RX.ESC, which writes the flag only. -/
theorem markerOnlySetsFlag : Obligations.MarkerOnlySetsFlag := by
  intro s hr hs he
  have hrow := exec_rx_eq_classRow (b := 0xAB#8) hr
  rw [classRow_of_marker hs he] at hrow
  exact ⟨row_of_selected hr (by simp [selectsEsc, hs, he]), hrow⟩

/-- Settles O14: with the flag set every byte yields the data byte under the mask. -/
theorem flaggedByteIsUnmasked : Obligations.FlaggedByteIsUnmasked := by
  intro s b row hr he hb hdata
  have hrow := exec_rx_eq_classRow (b := b) hr
  rw [classRow_of_flag hb (inFrame_of_dataRow hdata) he] at hrow
  refine ⟨?_, hrow⟩
  rw [← hrow, exec_rx_of_ready hr]
  exact (exec_dataRow_eq_rxByte hr hb (by rw [he]; rfl) hdata).symm

/-- Settles O15: with the flag clear a plain byte yields itself, and the selection has one row a state and phase. -/
theorem plainByteGoesToStateRow : Obligations.PlainByteGoesToStateRow := by
  refine ⟨fun s b row hr he hb hm hdata => ?_, fun p d => ?_⟩
  · have hrow := exec_rx_eq_classRow (b := b) hr
    rw [classRow_of_plain hb hm (inFrame_of_dataRow hdata) he] at hrow
    refine ⟨?_, hrow⟩
    rw [← hrow, exec_rx_of_ready hr, ← exec_dataRow_eq_rxByte hr hb (by simp [dataOf, he, hm]) hdata, ← he]
  · unfold dataRow
    cases p.st
    case readLen => cases p.lenPhase <;> rfl
    all_goals rfl

/-! ### The rows of the data level -/

/-- A high length byte that makes the length zero leads to the checksum (R181). -/
theorem takeLenHigh_of_zero {d : Byte} {s : State} (h : setLenHigh s.p.len d = 0) :
    takeLenHigh d s = next { s with
      p := { s.p with
        crc := crc8Update s.p.crc d, len := setLenHigh s.p.len d, lenPhase := false, st := .readChecksum }
      result := .event .evNone } :=
  if_pos h

/-- One that makes it a length up to the maximum leads to the payload (R181). -/
theorem takeLenHigh_of_inRange {d : Byte} {s : State} (h : setLenHigh s.p.len d ≠ 0)
    (hm : (setLenHigh s.p.len d).toNat ≤ s.params.maxPayload) :
    takeLenHigh d s = next { s with
      p := { s.p with
        crc := crc8Update s.p.crc d, len := setLenHigh s.p.len d, lenPhase := false, st := .readPayload }
      result := .event .evNone } :=
  (if_neg h).trans (if_pos (decide_eq_true hm))

/-- One that makes it a longer one ends the frame (R181, R182). -/
theorem takeLenHigh_of_tooLong {d : Byte} {s : State} (h : setLenHigh s.p.len d ≠ 0)
    (hm : ¬ (setLenHigh s.p.len d).toNat ≤ s.params.maxPayload) :
    takeLenHigh d s = next { s with p := idle s.p, result := .event .evSizeViolation } :=
  (if_neg h).trans (if_neg (by simpa [lengthInRange] using hm))

/-- A payload byte within the bound is stored at the count, and the last one leads to the checksum (R183). -/
theorem takePayload_of_fits {d : Byte} {s : State} (hl : s.p.cnt.toNat < s.p.len.toNat)
    (hm : s.p.cnt.toNat < s.params.maxPayload) :
    takePayload d s = next { s with
      p := { s.p with
        crc := crc8Update s.p.crc d, pay := s.p.pay.set s.p.cnt.toNat d, cnt := s.p.cnt + 1,
        st := if s.p.cnt + 1 = s.p.len then .readChecksum else s.p.st }
      result := .event .evNone } :=
  if_pos (decide_eq_true ⟨hl, hm⟩)

/-- The count after a byte within the bound is the declared length exactly at the last byte (R28, R183). -/
theorem cnt_succ_eq_len_iff {p : Parser} (h : p.cnt.toNat < p.len.toNat) :
    p.cnt + 1 = p.len ↔ p.cnt.toNat + 1 = p.len.toNat := by
  rw [← BitVec.toNat_inj, cnt_succ h]

/-- A wrong checksum ends the frame whatever the queue holds (R185, R265). -/
theorem takeChecksum_of_ne {d : Byte} {s : State} (h : d ≠ s.p.crc) :
    takeChecksum d s = next { s with p := idle s.p, result := .event .evCrcFail } :=
  if_neg (Ne.symm h)

/-- The right one at a full queue drops the command (R185, R212). -/
theorem takeChecksum_of_full {d : Byte} {s : State} (h : d = s.p.crc) (hq : s.q.count = s.params.queueCapacity) :
    takeChecksum d s = next { s with p := idle s.p, result := .event .evQueueFull } := by
  rw [takeChecksum, if_pos h.symm, Queue.push_full _ hq]
  rfl

/-- The right one with room pushes the command that the parser holds (R185, R211). -/
theorem takeChecksum_of_room {d : Byte} {s : State} (h : d = s.p.crc) (hq : s.q.count ≠ s.params.queueCapacity) :
    takeChecksum d s = next { s with
      p := idle s.p
      q := (s.q.push s.params.queueCapacity ⟨s.p.cmd, s.p.pay.take s.p.cnt.toNat⟩).1
      result := .event .evFrameOk } := by
  rw [takeChecksum, if_pos h.symm, Queue.push_room _ hq]
  simp only [bufReadAll, report_eq, if_true, Queue.push_room _ hq]
  rfl

/-- Settles O16: the address matches or is foreign. -/
theorem addressByteFilters : Obligations.AddressByteFilters := by
  intro s d hr hs
  refine (row_of_selected hr (beq_iff_eq.mpr hs)).trans ?_
  split
  next h => exact takeAddr_of_match h
  next h => exact takeAddr_of_foreign h

/-- Settles O17: the command row has no condition but its selection. -/
theorem commandByteIsStored : Obligations.CommandByteIsStored := fun _ _ hr hs =>
  row_of_selected hr (beq_iff_eq.mpr hs)

/-- Settles O18: the low length byte goes into the low half of the length (R97). -/
theorem lowLengthByteIsStored : Obligations.LowLengthByteIsStored := fun s d hr hs hphase =>
  ⟨setLenLow s.p.len d, setLenLow_toNat _ _, row_of_selected hr (by simp [hs, hphase])⟩

/-- Settles O19: the three ranges of the length. -/
theorem highLengthByteDecides : Obligations.HighLengthByteDecides := by
  intro s d hr hs hphase
  refine ⟨setLenHigh s.p.len d, setLenHigh_toNat _ _, (row_of_selected hr (by simp [hs, hphase])).trans ?_⟩
  have hzero : (setLenHigh s.p.len d).toNat = 0 ↔ setLenHigh s.p.len d = 0 := BitVec.toNat_inj (y := 0#16)
  split
  next h => exact takeLenHigh_of_zero (hzero.mp h)
  next h =>
    split
    next hm => exact takeLenHigh_of_inRange (mt hzero.mpr h) hm
    next hm => exact takeLenHigh_of_tooLong (mt hzero.mpr h) hm

/-- Settles O20: below the length the count does not wrap, so it meets the length exactly at the last byte. -/
theorem payloadByteIsAppended : Obligations.PayloadByteIsAppended := by
  intro s d hr hs hl hm
  refine (row_of_selected hr (beq_iff_eq.mpr hs)).trans ((takePayload_of_fits hl hm).trans ?_)
  simp only [cnt_succ_eq_len_iff hl, hs]

/-- Settles O21: the checksum is judged first, then the room in the queue. -/
theorem checksumByteCompletesFrame : Obligations.ChecksumByteCompletesFrame := by
  intro s d hr hs
  refine (row_of_selected hr (beq_iff_eq.mpr hs)).trans ?_
  by_cases hd : d = s.p.crc
  · by_cases hq : s.q.count = s.params.queueCapacity
    · simp only [hd, hq, ne_eq, not_true_eq_false, and_false, if_false, if_true]
      exact takeChecksum_of_full rfl hq
    · simp only [hd, hq, ne_eq, not_true_eq_false, not_false_eq_true, and_true, if_false, if_true]
      rw [takeChecksum_of_room rfl hq, Queue.push_room _ hq]
      rfl
  · simp only [hd, ne_eq, not_false_eq_true, false_and, if_false, if_true]
    exact takeChecksum_of_ne hd

end Sys2Proof.Machine

/-! ### What RX can do: completion and the transition table -/

namespace Sys2Proof.Machine
open Host.Outcome

/-- With the invariant RX completes with one event, as the row of the byte's class does (R170, R189). -/
theorem exec_classRow_completes {b : Byte} {s : State} (hi : s.Inv) (hr : s.ready = true) :
    ∃ (t : State) (e : Event), exec (classRow s.p b) s = next t ∧ t.result = .event e := by
  obtain ⟨t, hn⟩ := rxByte_total (b := b) hr hi
  obtain ⟨e, he⟩ := (rxByte_received hn).event
  exact ⟨t, e, (exec_classRow hr).trans hn, he⟩

/-- With the invariant a data byte completes with one event, as the row it selects does (R176, R184). -/
theorem exec_dataRow_completes {d : Byte} {s : State} {row : Instr} (hi : s.Inv) (hr : s.ready = true)
    (hrow : dataRow s.p d = some row) : ∃ (t : State) (e : Event), exec row s = next t ∧ t.result = .event e := by
  obtain ⟨t, hn⟩ := dispatchData_total (d := d) hr hi
  obtain ⟨e, he⟩ := (dispatchData_received hn).event
  exact ⟨t, e, (exec_dataRow hr hrow).trans hn, he⟩

/-- Settles O22: RX and the class rows are one operation, which the invariant lets complete. -/
theorem receiveAlwaysCompletes : Obligations.ReceiveAlwaysCompletes := by
  intro s b hi hr
  have hclass := exec_classRow_completes (b := b) hi hr
  refine ⟨?rx, fun hb hs he => ?unesc, fun hb hm hs he => ?data, fun row hrow => exec_dataRow_completes hi hr hrow⟩
  case rx =>
    obtain ⟨t, e, hn, he⟩ := hclass
    exact ⟨t, e, (exec_rx_eq_classRow hr).trans hn, he, hn⟩
  case unesc => rwa [classRow_of_flag hb hs he] at hclass
  case data => rwa [classRow_of_plain hb hm hs he] at hclass

/-- What a data byte does in a frame is one line of the table of R186; the raw byte it came from is `b`. -/
theorem dispatchData_transition {b d : Byte} {s t : State} (hb : b ≠ 0xAA#8) (hs : s.p.st ≠ .waitStart)
    (hd : dataOf s.p.esc b = some d) (hn : dispatchData d { s with p := { s.p with esc := false } } = next t) :
    ∃ e : Event, t.result = .event e ∧ Transition s b t.p.st e := by
  unfold dispatchData at hn
  split at hn
  case h_1 hst => exact absurd hst hs
  case h_2 hst =>
    obtain ⟨-, -, ⟨hm, he, hp⟩ | ⟨hm, he, hp⟩⟩ := takeAddr_next hn
    · rw [hp]
      exact ⟨_, he, .addrMatch d hb hst hd (addressMatches_iff.mp hm)⟩
    · obtain ⟨hmy, hbc⟩ := not_or.mp (mt addressMatches_iff.mpr (Bool.eq_false_iff.mp hm))
      rw [hp]
      exact ⟨_, he, .addrOther d hb hst hd hmy hbc⟩
  case h_3 hst =>
    cases hn
    exact ⟨_, rfl, .command d hb hst hd⟩
  case h_4 hst =>
    split at hn
    next hphase =>
      have hlen := setLenHigh_toNat s.p.len d
      have hzero : setLenHigh s.p.len d = 0 ↔ (setLenHigh s.p.len d).toNat = 0 := (BitVec.toNat_inj (y := 0#16)).symm
      rw [hlen] at hzero
      obtain ⟨-, -, ⟨h0, he, hp⟩ | ⟨h0, hm, he, hp⟩ | ⟨h0, hm, he, hp⟩⟩ := takeLenHigh_next hn
      · rw [hp]
        exact ⟨_, he, .lenZero d hb hst hphase hd (hzero.mp h0)⟩
      · rw [hp]
        exact ⟨_, he, .lenInRange d hb hst hphase hd (Nat.one_le_iff_ne_zero.mpr (mt hzero.mpr h0)) (hlen ▸ hm)⟩
      · rw [hp]
        exact ⟨_, he, .lenTooLong d hb hst hphase hd (hlen ▸ hm)⟩
    next hphase =>
      cases hn
      rw [show s.p.st = .readLen from hst]
      exact ⟨_, rfl, .lenLow d hb hst (Bool.eq_false_iff.mpr hphase) hd⟩
  case h_5 hst =>
    obtain ⟨-, -, hlt, -, he, hp⟩ := takePayload_next hn
    have hlast := cnt_succ_eq_len_iff hlt
    refine ⟨_, he, ?_⟩
    rw [hp]
    split
    next h => exact .payloadLast d hb hst hd (hlast.mp h)
    next h =>
      rw [show s.p.st = .readPayload from hst]
      exact .payloadMore d hb hst hd (Nat.lt_of_le_of_ne hlt (mt hlast.mpr h))
  case h_6 hst =>
    obtain ⟨-, hp, ⟨hc, -, he⟩ | ⟨hc, hq, -, he⟩ | ⟨hc, hq, -, he⟩⟩ := takeChecksum_next hn <;> rw [hp]
    · exact ⟨_, he, .checksumBad d hb hst hd hc⟩
    · exact ⟨_, he, .checksumFull d hb hst hd hc hq⟩
    · exact ⟨_, he, .checksumOk d hb hst hd hc hq⟩

/-- Settles O23: the delimiter, a byte outside a frame, a marker, and a data byte, which `dispatchData_transition` takes. -/
theorem receiveFollowsTransitionTable : Obligations.ReceiveFollowsTransitionTable := by
  intro s t b _ hr hn
  rw [exec_rx_of_ready hr] at hn
  by_cases hb : b = 0xAA#8
  · subst hb
    cases (rxByte_delim s).symm.trans hn
    refine ⟨_, rfl, ?_⟩
    split
    next hs => exact .delimIdle rfl hs
    next hs => exact .delimInFrame rfl hs
  by_cases hs : s.p.st = .waitStart
  · cases (rxByte_of_waitStart hb hs).symm.trans hn
    rw [hs]
    exact ⟨_, rfl, .ignored hb hs⟩
  cases hd : dataOf s.p.esc b with
  | none =>
    rw [rxByte_of_no_data hb hs hd] at hn
    cases hn
    exact ⟨_, rfl, .marker hb hs hd⟩
  | some d =>
    rw [rxByte_of_data hb hs hd] at hn
    exact dispatchData_transition hb hs hd hn

end Sys2Proof.Machine

/-! ## Frames through the parser (spec/42_packet_parser R189, R190) -/

namespace Sys2Proof.Machine
open Host.Outcome

/-! ### A packet without a delimiter -/

/-- Settles O30: the escaped packet holds no delimiter, so outside a frame it passes. -/
theorem packetWithoutDelimiterIsIgnored : Obligations.PacketWithoutDelimiterIsIgnored := fun _ _ _ _ hr hs hp =>
  exec_packet_of_runs hr hp (.idle hs (delim_not_mem_stuff _))

/-! ### A frame that is decided at one of its bytes -/

/-- A run leaves the parameters, the instance in use, SINK and the trace (R75, R106). -/
theorem Runs.kept {bs : List Byte} {s t : State} {es : List Event} (h : Runs bs s t es) :
    t.params = s.params ∧ t.ready = s.ready ∧ t.sink = s.sink ∧ t.trace = s.trace :=
  rxs_received (t := { t with result := .events es }) h

/-- A packet whose bytes up to `v` report nothing, and whose byte `v` reports `e` and leaves the parser outside a frame,
reports nothing behind it: the frame is decided at the last raw byte of `v` (R95, R173). -/
theorem Runs.frame_decided_at {s u t : State} {a c v : Byte} {p before after : List Byte} {e : Event}
    (hpacket : packet a c p = before ++ v :: after)
    (hbefore : Runs (stuff before) { s with p := frameStart s.p } u (List.replicate (stuff before).length .evNone))
    (hu : u.p.st ≠ .waitStart) (hesc : u.p.esc = false)
    (hv : dispatchData v u = next { t with result := .event e }) (ht : t.p.st = .waitStart) :
    Runs (frame a c p) s t ((if s.p.st = .waitStart then .evNone else .evResync) ::
      (List.replicate ((stuff (before ++ [v])).length - 1) .evNone ++
        e :: List.replicate (stuff after).length .evNone)) := by
  have hlen : (stuff (before ++ [v])).length - 1 = (stuff before).length + ((escapeUnit v).length - 1) := by
    have := (escapeUnit_length v).1
    simp only [stuff_split, stuff_cons, stuff_nil, List.append_nil, List.length_append]
    omega
  have hrun := (hbefore.append (.unit hu hesc hv)).append (.idle ht (delim_not_mem_stuff after))
  apply Runs.frame_of_packet
  rw [hpacket, stuff_split, stuff_cons, hlen, ← List.replicate_append_replicate]
  simpa only [List.append_assoc, List.cons_append, List.nil_append] using hrun

/-- The length of a frame, counted around the byte at which it is decided. -/
theorem frame_length_around {a c v : Byte} {p before after : List Byte} (hpacket : packet a c p = before ++ v :: after) :
    1 + ((stuff (before ++ [v])).length - 1) + 1 + (stuff after).length = (frame a c p).length := by
  have := (escapeUnit_length v).1
  rw [frame, hpacket]
  simp only [stuff_split, stuff_cons, stuff_nil, List.append_nil, List.length_append, List.length_cons]
  omega

/-! ### Frames that are not taken -/

/-- A frame that is decided by a byte that ends it with `e` and the parser idle enqueues nothing, and `e` is its only
report but the delimiter's. -/
theorem frame_discarded_at {s u : State} {a c v : Byte} {p before after : List Byte} {e : Event} (hr : s.ready = true)
    (hp : p.length ≤ maxLength) (hpacket : packet a c p = before ++ v :: after)
    (hbefore : Runs (stuff before) { s with p := frameStart s.p } u (List.replicate (stuff before).length .evNone))
    (hu : u.p.st ≠ .waitStart) (hesc : u.p.esc = false) (hq : u.q = s.q)
    (hv : dispatchData v u = next { u with p := idle u.p, result := .event e }) :
    ∃ (t : State) (pre post : List Event), exec (.frame a c p) s = next t ∧
      t.q = s.q ∧ t.p.st = .waitStart ∧ t.p.Cleared ∧
      t.params = s.params ∧ t.ready = true ∧ t.sink = s.sink ∧ t.trace = s.trace ∧
      t.result = .events ((if s.p.st = .waitStart then .evNone else .evResync) :: (pre ++ e :: post)) ∧
      (∀ x ∈ pre ++ post, x = .evNone) ∧
      pre.length + 1 = (stuff (before ++ [v])).length ∧
      1 + pre.length + 1 + post.length = (frame a c p).length := by
  have hrun := Runs.frame_decided_at (t := { u with p := idle u.p }) hpacket hbefore hu hesc hv rfl
  obtain ⟨hparams, hready, hsink, htrace⟩ := hrun.kept
  have hlen := frame_length_around hpacket
  have := (escapeUnit_length v).1
  refine ⟨_, _, _, exec_frame_of_runs hr hp hrun, hq, rfl, idle_cleared _, hparams, hready.trans hr, hsink, htrace, rfl,
    ?_, ?_, ?_⟩
  · simp [List.mem_replicate]
  · simp [stuff_split, stuff_cons]
    omega
  · simpa using hlen

/-- Settles O27: the frame of a foreign address is decided at its address. -/
theorem foreignFrameIsSkipped : Obligations.ForeignFrameIsSkipped := by
  intro s a c p _ hr hmy hbc hp
  have hskip := takeAddr_of_foreign (s := { s with p := frameStart s.p }) (not_or.mpr ⟨hmy, hbc⟩)
  obtain ⟨t, pre, post, ht⟩ := frame_discarded_at (before := []) hr hp rfl (.nil _) (by simp) rfl rfl hskip
  exact ⟨t, pre, post, by simpa [stuff] using ht⟩

/-- Settles O28: the frame of a payload above the maximum is decided at the high byte of its length. -/
theorem overlongFrameIsRejected : Obligations.OverlongFrameIsRejected := by
  intro s a c p _ hr ha hlong hp
  have hhigh := inFrame_lenHigh (s := s) (a := a) (c := c) hp
  rw [if_neg (by omega), if_neg (by omega)] at hhigh
  exact frame_discarded_at (before := [a, c, lenLow p.length]) (v := lenHigh p.length) hr hp rfl (.header ha)
    (by simp [inFrame]) rfl rfl hhigh

/-! ### Frames that are taken -/

/-- The frame of an admitted command brings the parser to its checksum, the right one, with the command in the parser; what
the checksum byte then does ends the run (R190). -/
theorem admittedFrame_runs {s : State} {a c : Byte} {p : List Byte} (hw : s.params.Wf)
    (hpay : s.p.pay.length = s.params.maxPayload) (ha : a = s.params.myAddr ∨ a = 0x00#8)
    (hp : p.length ≤ s.params.maxPayload) :
    ∃ u : State, u.p.cmd = c ∧ u.p.pay.take u.p.cnt.toNat = p ∧ u.q = s.q ∧ u.params = s.params ∧
      ∀ (t : State) (e : Event), takeChecksum u.p.crc u = next { t with result := .event e } → t.p.st = .waitStart →
        Runs (frame a c p) s t ((if s.p.st = .waitStart then .evNone else .evResync) ::
          (List.replicate ((frame a c p).length - 2) .evNone ++ [e])) := by
  obtain ⟨u, hbody, hst, hesc, hcmd, htake, hcrc, hq, hparams, -, -, -⟩ := Runs.body (c := c) hw hpay ha hp
  refine ⟨u, hcmd, htake, hq, hparams, fun t e hck ht => ?_⟩
  have hv : dispatchData (crc8 (packetBody a c p)) u = next { t with result := .event e } := by
    rw [dispatchData, hst, ← hcrc]
    exact hck
  have hlen := frame_length_around (show packet a c p = packetBody a c p ++ crc8 (packetBody a c p) :: [] from rfl)
  have hrun := Runs.frame_decided_at rfl hbody (by simp [hst]) hesc hv ht
  rw [show (frame a c p).length - 2 = (stuff (packetBody a c p ++ [crc8 (packetBody a c p)])).length - 1 by
    rw [← hlen, stuff_nil, List.length_nil]; omega]
  exact hrun

/-- The frame of an admitted command, with room in the queue, appends that command and leaves the parser idle (R190). -/
theorem goodFrame_runs {s : State} {a c : Byte} {p : List Byte} (hi : s.Inv) (hr : s.ready = true)
    (ha : a = s.params.myAddr ∨ a = 0x00#8) (hp : p.length ≤ s.params.maxPayload)
    (hroom : s.q.count ≠ s.params.queueCapacity) :
    ∃ t : State,
      Runs (frame a c p) s t ((if s.p.st = .waitStart then .evNone else .evResync) ::
        (List.replicate ((frame a c p).length - 2) .evNone ++ [.evFrameOk])) ∧
      t.items = s.items ++ [⟨c, p⟩] ∧ t.p.st = .waitStart ∧ t.p.Cleared ∧ t.q.head = s.q.head := by
  obtain ⟨u, rfl, rfl, hq, hparams, hrun⟩ := admittedFrame_runs (c := c) hi.params hi.paySize ha hp
  rw [← hq, ← hparams] at hroom
  refine ⟨_, hrun { u with p := idle u.p, q := _ } _ (takeChecksum_of_room rfl hroom) rfl, ?_, rfl, idle_cleared _, ?_⟩
  · have hsound := (hi.live hr).queueSound hi.slotSize
    rw [← hq, ← hparams] at hsound
    simp only [State.items, ← hq, ← hparams]
    exact Queue.items_push hsound _ hroom
  · rw [Queue.push_room _ hroom, ← hq]

/-- Settles O25: FRAME is that run. -/
theorem goodFrameIsEnqueued : Obligations.GoodFrameIsEnqueued := by
  intro s a c p hi hr ha hp hroom
  obtain ⟨t, hrun, hitems, hst, hcleared, hhead⟩ := goodFrame_runs (c := c) hi hr ha hp hroom
  obtain ⟨hparams, hready, hsink, htrace⟩ := hrun.kept
  exact ⟨_, exec_frame_of_runs hr (hp.trans hi.params.payloadMax) hrun, hitems, hst, hcleared, hparams,
    hready.trans hr, hsink, htrace, hhead, rfl⟩

/-! ### Loopback -/

/-- Escaping at most doubles a list (R132). -/
theorem stuff_length_le (data : List Byte) : (stuff data).length ≤ 2 * data.length := by
  rw [stuff_length, Nat.two_mul]
  exact Nat.add_le_add_left List.countP_le_length _

/-- The escaped buffer is large enough for every admitted packet, so the serializer builds the whole frame (R7, R235). -/
theorem frameBuffer_eq_frame {params : Params} {a c : Byte} {p : List Byte} (hw : params.Wf)
    (hp : p.length ≤ params.maxPayload) : frameBuffer params.maxEscaped a c p = frame a c p := by
  have hlen := stuff_length_le (packet a c p)
  rw [packet_length] at hlen
  have := hw.escapedMin
  rw [frameBuffer, escape_fits (by omega), frame]

/-- TX.SEND of an admitted payload puts the frame on SINK (R233). -/
theorem execTxSend_of_fits {s : State} {a c : Byte} {p : List Byte} (hw : s.params.Wf) (hr : s.ready = true)
    (hp : p.length ≤ s.params.maxPayload) :
    execTxSend a c p s = next { s with sink := s.sink ++ frame a c p, result := .sent } := by
  rw [execTxSend, whenReady_true hr, txSend, if_neg (by omega), frameBuffer_eq_frame hw hp]
  rfl

theorem loopback_of_runs {s t : State} {a c : Byte} {p : List Byte} {es : List Event} (hw : s.params.Wf)
    (hr : s.ready = true) (hp : p.length ≤ s.params.maxPayload)
    (hrun : Runs (frame a c p) { s with sink := s.sink ++ frame a c p, result := .sent } t es) :
    loopback a c p s = next { t with result := .events es } := by
  rw [loopback, execTxSend_of_fits hw hr hp, andThen_next, whenReady_true, List.drop_left]
  exacts [hrun, hr]

theorem loopbackTo_of_runs {s r t : State} {a c : Byte} {p : List Byte} {es : List Event} (hw : s.params.Wf)
    (hs : s.ready = true) (hr : r.ready = true) (hp : p.length ≤ s.params.maxPayload)
    (hrun : Runs (frame a c p) r t es) : loopbackTo a c p s r = next { t with result := .events es } := by
  rw [loopbackTo, execTxSend_of_fits hw hs hp, andThen_next, whenReady_true, List.drop_left]
  exacts [hrun, hr]

/-- The last event of a frame that is taken. -/
theorem frameOk_last (first : Event) (n : Nat) :
    (first :: (List.replicate n .evNone ++ [.evFrameOk])).getLast? = some .evFrameOk := by
  rw [← List.cons_append, List.getLast?_concat]

/-- Settles O47: SINK grows by the frame, and the frame is the run that enqueues the command. -/
theorem loopbackDeliversTheCommand : Obligations.LoopbackDeliversTheCommand := by
  constructor
  · intro s a c p hi hr ha hp hroom
    obtain ⟨t, hrun, hitems, hst, -, -⟩ := goodFrame_runs (c := c) (p := p)
      ((hi.setSink (s.sink ++ frame a c p)).setResult .sent) hr ha hp hroom
    obtain ⟨-, -, hsink, -⟩ := hrun.kept
    exact ⟨_, loopback_of_runs hi.params hr hp hrun, hitems, hst, hsink, frameOk_last _ _⟩
  · intro s r a c p hi hs hi' hr ha hp hp' hroom
    obtain ⟨t, hrun, hitems, hst, -, -⟩ := goodFrame_runs (c := c) hi' hr ha hp' hroom
    obtain ⟨-, -, hsink, -⟩ := hrun.kept
    exact ⟨_, loopbackTo_of_runs hi.params hs hr hp hrun, hitems, hst, hsink, frameOk_last _ _⟩

end Sys2Proof.Machine

/-! ## What a delimiter forgets (spec/42_packet_parser R189 item 1) -/

namespace Sys2Proof.Machine
open Host.Outcome

/-! ### States that no received byte tells apart -/

/-- The parameters, the queue, the size of the payload array and all that can be read of the parser are the same (R29). -/
structure Alike (s s' : State) : Prop where
  params : s.params = s'.params
  queue : s.q = s'.q
  paySize : s.p.pay.length = s'.p.pay.length
  parser : s.p.Agree s'.p

/-- Both operations complete, in states that are alike and with the same output, or both are refused for the same reason. -/
inductive AnswersAlike : Answer → Answer → Prop where
  | next {t t' : State} (alike : Alike t t') (result : t.result = t'.result) : AnswersAlike (next t) (next t')
  | refused (r : Refusal) : AnswersAlike (refused r) (refused r)

theorem Alike.setResult {s s' : State} (h : Alike s s') (r r' : Result) :
    Alike { s with result := r } { s' with result := r' } :=
  ⟨h.params, h.queue, h.paySize, h.parser⟩

theorem AnswersAlike.of_next {o o' : Answer} {t t' : State} (h : AnswersAlike o o') (hn : o = Host.Outcome.next t)
    (hn' : o' = Host.Outcome.next t') : Alike t t' ∧ t.result = t'.result := by
  subst hn hn'
  cases h with
  | next alike result => exact ⟨alike, result⟩

/-- The output of the last operation is not read, so the same report is an answer alike (R264). -/
theorem AnswersAlike.report {e e' : Event} {s s' : State} (he : e = e') (h : Alike s s') :
    AnswersAlike (report e s) (report e' s') :=
  .next (h.setResult _ _) (congrArg Result.event he)

/-- A choice that both make the same way. -/
theorem AnswersAlike.ite {c c' : Prop} [Decidable c] [Decidable c'] {x x' y y' : Answer} (hc : c ↔ c')
    (hx : c → AnswersAlike x x') (hy : ¬ c → AnswersAlike y y') :
    AnswersAlike (if c then x else y) (if c' then x' else y') := by
  by_cases h : c
  · rw [if_pos h, if_pos (hc.mp h)]
    exact hx h
  · rw [if_neg h, if_neg (mt hc.mpr h)]
    exact hy h

/-- At the start of a frame all parsers agree: every per-frame register is clear, and nothing of the payload is readable
(R171, R172). -/
theorem frameStart_alike {s s' : State} (hparams : s.params = s'.params) (hq : s.q = s'.q)
    (hsize : s.p.pay.length = s'.p.pay.length) :
    Alike { s with p := frameStart s.p } { s' with p := frameStart s'.p } :=
  ⟨hparams, hq, hsize, ⟨rfl, rfl, rfl, rfl, rfl, rfl, rfl, rfl, rfl, rfl⟩⟩

/-- The same byte stored at the same index keeps the bytes up to it the same (R29, R183). -/
theorem take_succ_set {l l' : List Byte} {n : Nat} (v : Byte) (hlen : l.length = l'.length)
    (h : l.take n = l'.take n) : (l.set n v).take (n + 1) = (l'.set n v).take (n + 1) := by
  simp [List.take_add_one, List.take_set_of_le, h, List.getElem?_set, hlen]

section
variable {s s' : State} (h : Alike s s')
include h

theorem Alike.setParser {p p' : Parser} (hsize : p.pay.length = p'.pay.length) (hp : p.Agree p') :
    Alike { s with p := p } { s' with p := p' } :=
  ⟨h.params, h.queue, hsize, hp⟩

/-- Idle parsers agree, whatever they were: nothing of the payload is readable (R187). -/
theorem Alike.idle : Alike { s with p := idle s.p } { s' with p := idle s'.p } :=
  h.setParser h.paySize ⟨rfl, rfl, rfl, rfl, rfl, rfl, rfl, rfl, rfl, rfl⟩

/-! ### The rows -/

theorem takeAddr_alike (d : Byte) : AnswersAlike (takeAddr d s) (takeAddr d s') :=
  .ite (by rw [h.params])
    (fun _ => .report rfl (h.setParser h.paySize
      { h.parser with st := rfl, addr := rfl, crc := congrArg (crc8Update · d) h.parser.crc }))
    (fun _ => .report rfl h.idle)

theorem takeCmd_alike (d : Byte) : AnswersAlike (takeCmd d s) (takeCmd d s') :=
  .report rfl (h.setParser h.paySize
    { h.parser with st := rfl, cmd := rfl, crc := congrArg (crc8Update · d) h.parser.crc })

theorem takeLenLow_alike (d : Byte) : AnswersAlike (takeLenLow d s) (takeLenLow d s') :=
  .report rfl (h.setParser h.paySize
    { h.parser with
      lenPhase := rfl
      len := congrArg (setLenLow · d) h.parser.len
      crc := congrArg (crc8Update · d) h.parser.crc })

theorem takeLenHigh_alike (d : Byte) : AnswersAlike (takeLenHigh d s) (takeLenHigh d s') := by
  have hlen := congrArg (setLenHigh · d) h.parser.len
  have hcrc := congrArg (crc8Update · d) h.parser.crc
  exact .ite (by rw [h.parser.len])
    (fun _ => .report rfl (h.setParser h.paySize
      { h.parser with st := rfl, lenPhase := rfl, len := hlen, crc := hcrc }))
    fun _ => .ite (by rw [h.parser.len, h.params])
      (fun _ => .report rfl (h.setParser h.paySize
        { h.parser with st := rfl, lenPhase := rfl, len := hlen, crc := hcrc }))
      fun _ => .report rfl h.idle

theorem takePayload_alike (d : Byte) : AnswersAlike (takePayload d s) (takePayload d s') := by
  obtain ⟨hst, -, -, -, hlen, hcnt, hpay, hcrc, -, -⟩ := h.parser
  refine .ite (by rw [payloadFits, payloadFits, hlen, hcnt, h.params]) (fun hfits => .report rfl ?_)
    (fun _ => .refused _)
  have hlt : s.p.cnt.toNat < s.p.len.toNat := (of_decide_eq_true hfits).1
  refine h.setParser (by simp [bufWrite, h.paySize]) { h.parser with st := ?_, cnt := ?_, pay := ?_, crc := ?_ }
  · simp only [hcnt, hlen, hst]
  · simp only [hcnt]
  · rw [← hcnt] at hpay ⊢
    simp only [bufWrite, cnt_succ hlt]
    exact take_succ_set d h.paySize hpay
  · simp only [hcrc]

theorem takeChecksum_alike (d : Byte) : AnswersAlike (takeChecksum d s) (takeChecksum d s') := by
  obtain ⟨-, -, -, hcmd, -, -, hpay, hcrc, -, -⟩ := h.parser
  have hpush : s.q.push s.params.queueCapacity ⟨s.p.cmd, bufReadAll s.p.pay s.p.cnt.toNat⟩ =
      s'.q.push s'.params.queueCapacity ⟨s'.p.cmd, bufReadAll s'.p.pay s'.p.cnt.toNat⟩ := by
    rw [h.queue, h.params, hcmd, bufReadAll, bufReadAll, hpay]
  exact .ite (by rw [hcrc])
    (fun _ => .report (by rw [hpush]) ⟨h.params, congrArg Prod.fst hpush, h.paySize, h.idle.parser⟩)
    (fun _ => .report rfl h.idle)

theorem dispatchData_alike (d : Byte) : AnswersAlike (dispatchData d s) (dispatchData d s') := by
  unfold dispatchData
  rw [← h.parser.st]
  cases s.p.st with
  | waitStart => exact .report rfl h
  | readAddr => exact takeAddr_alike h d
  | readCmd => exact takeCmd_alike h d
  | readLen =>
    exact .ite (by rw [h.parser.lenPhase]) (fun _ => takeLenHigh_alike h d) (fun _ => takeLenLow_alike h d)
  | readPayload => exact takePayload_alike h d
  | readChecksum => exact takeChecksum_alike h d

theorem Alike.setEsc (esc : Bool) :
    Alike { s with p := { s.p with esc := esc } } { s' with p := { s'.p with esc := esc } } :=
  h.setParser h.paySize { h.parser with esc := rfl }

theorem rxByte_alike (b : Byte) : AnswersAlike (rxByte b s) (rxByte b s') :=
  .ite .rfl
    (fun _ => .report (by rw [h.parser.st]) (frameStart_alike h.params h.queue h.paySize))
    fun _ => .ite (by rw [h.parser.st]) (fun _ => .report rfl h)
      fun _ => .ite (by rw [h.parser.esc]) (fun _ => dispatchData_alike (h.setEsc false) _)
        fun _ => .ite .rfl (fun _ => .report rfl (h.setEsc true)) fun _ => dispatchData_alike h b

end

/-! ### Runs -/

/-- The same bytes lead states that are alike to states that are alike, with the same events. -/
theorem rxs_alike {bs : List Byte} : ∀ {s s' t t' : State}, Alike s s' → rxs bs s = next t → rxs bs s' = next t' →
    Alike t t' ∧ t.result.eventList = t'.result.eventList := by
  induction bs with
  | nil =>
    intro s s' t t' h hn hn'
    cases hn
    cases hn'
    exact ⟨h.setResult _ _, rfl⟩
  | cons b bs ih =>
    intro s s' t t' h hn hn'
    obtain ⟨u, v, hbyte, hrest, rfl⟩ := rxs_cons_eq_next.mp hn
    obtain ⟨u', v', hbyte', hrest', rfl⟩ := rxs_cons_eq_next.mp hn'
    obtain ⟨hu, hresult⟩ := (rxByte_alike h b).of_next hbyte hbyte'
    obtain ⟨hv, hevents⟩ := ih hu hrest hrest'
    exact ⟨hv.setResult _ _, congrArg₂ (· ++ ·) (congrArg Result.eventList hresult) hevents⟩

/-- Settles O31: behind the delimiter the two instances are alike, whatever their parsers were. -/
theorem delimiterForgetsThePast : Obligations.DelimiterForgetsThePast := by
  intro s s' t t' bytes hi hi' _ _ hparams hq hn hn'
  obtain ⟨u, v, hdelim, hrest, rfl⟩ := rxs_cons_eq_next.mp hn
  obtain ⟨u', v', hdelim', hrest', rfl⟩ := rxs_cons_eq_next.mp hn'
  cases (rxByte_delim s).symm.trans hdelim
  cases (rxByte_delim s').symm.trans hdelim'
  have hstart := frameStart_alike hparams hq (by rw [hi.paySize, hi'.paySize, hparams])
  obtain ⟨halike, hevents⟩ := rxs_alike (hstart.setResult _ _) hrest hrest'
  exact ⟨halike.parser, halike.queue, hevents⟩

end Sys2Proof.Machine

/-! ## The command FIFO (spec/43_command_fifo R210 to R214) -/

namespace Sys2Proof.Machine
open Host.Outcome

/-! ### A push and a read on the abstract view -/

theorem Queue.push_fst (capacity : Nat) (e : Entry) (q : Queue) :
    (q.push capacity e).1 = if q.count = capacity then q
      else { q with slots := q.slots.set q.tail e, tail := (q.tail + 1) % capacity, count := q.count + 1 } := by
  split
  next h => rw [Queue.push_full e h]
  next h => rw [Queue.push_room e h]

/-- A push is accepted exactly with room (R211, R212). -/
theorem Queue.push_snd (capacity : Nat) (e : Entry) (q : Queue) :
    (q.push capacity e).2 = decide (q.count ≠ capacity) := by
  by_cases h : q.count = capacity
  · simp [Queue.push_full e h, h]
  · simp [Queue.push_room e h, h]

/-- A push appends to the bounded list, or drops the entry at its bound (R211, R212). -/
theorem Queue.items_push_eq_ite {capacity : Nat} {q : Queue} (hq : q.Sound capacity) (e : Entry) :
    (q.push capacity e).1.items capacity =
      if (q.items capacity).length = capacity then q.items capacity else q.items capacity ++ [e] := by
  rw [Queue.items_length]
  split
  next h => rw [Queue.push_full e h]
  next h => exact Queue.items_push hq e h

theorem Queue.items_eq_nil_iff {capacity : Nat} {q : Queue} : q.items capacity = [] ↔ q.count = 0 := by
  rw [← List.length_eq_zero_iff, Queue.items_length]

/-- A read answers the oldest entry, `none` on an empty queue (R213, R214). -/
theorem Queue.read_snd {capacity : Nat} {q : Queue} (hq : q.Sound capacity) :
    (q.read capacity).2 = (q.items capacity).head? := by
  by_cases h : q.count = 0
  · rw [Queue.read_empty h, Queue.items_eq_nil_iff.mpr h, List.head?_nil]
  · rw [Queue.items_read hq h, Queue.read_some h, List.head?_cons]

/-- A read leaves the entries behind the oldest, in order (R213, R214). -/
theorem Queue.items_read_eq_tail {capacity : Nat} {q : Queue} (hq : q.Sound capacity) :
    (q.read capacity).1.items capacity = (q.items capacity).tail := by
  by_cases h : q.count = 0
  · rw [Queue.read_empty h, Queue.items_eq_nil_iff.mpr h, List.tail_nil]
  · rw [Queue.items_read hq h, List.tail_cons]

/-! ### Q.READ -/

/-- `Q.READ` on an instance in use is the read of the registers (R213). -/
theorem exec_qRead_of_ready {s : State} (hr : s.ready = true) :
    exec .qRead s = next { s with
      q := (s.q.read s.params.queueCapacity).1
      result := .entry (s.q.read s.params.queueCapacity).2 } :=
  whenReady_true hr _

/-- Settles O49: the read of the registers, seen on the abstract view. -/
theorem readTakesTheOldest : Obligations.ReadTakesTheOldest := by
  intro s hi hr
  have hsound := (hi.live hr).queueSound hi.slotSize
  refine ⟨(s.q.read s.params.queueCapacity).1, ?_, Queue.items_read_eq_tail hsound, fun hempty => ?_⟩
  · rw [exec_qRead_of_ready hr, Queue.read_snd hsound]
  · rw [Queue.read_empty (Queue.items_eq_nil_iff.mp hempty)]

/-! ### Q.PUSH, and the checksum byte that performs it -/

/-- At its point inside an RX, `Q.PUSH` of the command the parser holds is the push on the registers (R211, R185). -/
theorem exec_qPush_of_selected {s : State} (hr : s.ready = true) (hpay : s.p.pay.length = s.params.maxPayload)
    (hst : s.p.st = .readChecksum) (hck : s.p.rxCk = s.p.crc) :
    exec (.qPush s.p.cmd (s.p.pay.take s.p.cnt.toNat)) s = next { s with
      q := (s.q.push s.params.queueCapacity ⟨s.p.cmd, s.p.pay.take s.p.cnt.toNat⟩).1
      result := .accepted (s.q.push s.params.queueCapacity ⟨s.p.cmd, s.p.pay.take s.p.cnt.toNat⟩).2 } := by
  have hlen : (s.p.pay.take s.p.cnt.toNat).length ≤ s.params.maxPayload :=
    hpay ▸ List.length_take_le' _ _
  refine (execQPush_of_length_le hlen).trans ?_
  rw [whenReady_true hr, selectsPush_iff.mpr ⟨hst, hck, rfl, rfl⟩]
  rfl

/-- The matching checksum pushes the command that the parser holds, and its event is the push's answer (R185). -/
theorem exec_rxChecksum_of_matching {s : State} (hr : s.ready = true) (hst : s.p.st = .readChecksum) :
    exec (.rxChecksum s.p.crc) s = next { s with
      p := idle s.p
      q := (s.q.push s.params.queueCapacity ⟨s.p.cmd, s.p.pay.take s.p.cnt.toNat⟩).1
      result := .event (if (s.q.push s.params.queueCapacity ⟨s.p.cmd, s.p.pay.take s.p.cnt.toNat⟩).2 = true
        then .evFrameOk else .evQueueFull) } :=
  (row_of_selected hr (beq_iff_eq.mpr hst)).trans (if_pos rfl)

/-- Settles O48: where the row completes, what it does there, and that the matching checksum byte does it. -/
theorem pushAppendsUnlessFull : Obligations.PushAppendsUnlessFull := by
  intro s hi hr
  refine ⟨fun cmd payload t hn => ?_, fun hst hck => ?_, fun hst => ?_⟩
  · obtain ⟨-, hsel, -, -⟩ := execQPush_next hn
    exact selectsPush_iff.mp hsel
  · refine ⟨_, ?_, Queue.push_fst _ _ _, Queue.items_push_eq_ite ((hi.live hr).queueSound hi.slotSize) _⟩
    rw [exec_qPush_of_selected hr hi.paySize hst hck, Queue.push_snd]
  · exact ⟨_, _, _, exec_rxChecksum_of_matching hr hst,
      exec_qPush_of_selected (s := { s with p := { s.p with rxCk := s.p.crc } }) hr hi.paySize hst rfl,
      rfl, rfl, rfl⟩

/-! ### The frame that a full queue loses -/

/-- Settles O26: the frame's checksum matches, and at a full queue it only ends the frame. -/
theorem goodFrameAtFullQueueIsDropped : Obligations.GoodFrameAtFullQueueIsDropped := by
  intro s a c p hi hr ha hp hfull
  obtain ⟨u, -, -, hq, hparams, hruns⟩ := admittedFrame_runs (c := c) hi.params hi.paySize ha hp
  rw [← hq, ← hparams] at hfull
  have hrun := hruns { u with p := idle u.p } .evQueueFull (takeChecksum_of_full rfl hfull) rfl
  obtain ⟨hparams', hready, hsink, htrace⟩ := hrun.kept
  exact ⟨_, exec_frame_of_runs hr (hp.trans hi.params.payloadMax) hrun, hq, rfl, idle_cleared _, hparams',
    hready.trans hr, hsink, htrace, rfl⟩

/-! ### What changes the entries -/

/-- A row that leaves the queue alone leaves the entries (R40, R75). -/
theorem items_of_leavesQueue {i : Instr} {s t : State} (hi : leavesQueue i = true) (hn : exec i s = next t) :
    t.items = s.items := by
  obtain ⟨-, hqueue, -⟩ := halvesStayApart i s t hn
  obtain ⟨hparams, -⟩ := parametersNeverChange i s t hn
  rw [State.items, hqueue hi, hparams]

/-- Settles O59: of the port operations only RX, Q.READ and RESET write the queue, and RX only by its push. -/
theorem onlyChecksumByteEnqueues : Obligations.OnlyChecksumByteEnqueues := by
  intro i s t hi hr hport hn
  have hsound := (hi.live hr).queueSound hi.slotSize
  cases i with
  | rx b =>
    rw [exec_rx_of_ready hr] at hn
    have hparams := (rxByte_received hn).params
    obtain hq | ⟨hb, hst, hdata, hroom, hq⟩ := rxByte_queue hn
    · exact .inl (by rw [State.items, hq, hparams])
    · refine .inr (.inr (.inr ⟨b, rfl, hb, hst, hdata, hroom, ?_⟩))
      rw [State.items, hq, hparams]
      exact Queue.items_push hsound _ hroom
  | qRead =>
    cases (exec_qRead_of_ready hr).symm.trans hn
    exact .inr (.inl ⟨rfl, Queue.items_read_eq_tail hsound⟩)
  | reset =>
    cases hn
    exact .inr (.inr (.inl ⟨rfl, Queue.items_clear _ _⟩))
  | txSend _ _ _ | txSend1 _ _ _ | crc8Update _ _ | crc8Calc _ | escape _ => exact .inl (items_of_leavesQueue rfl hn)
  | _ => cases hport

end Sys2Proof.Machine

/-! ## The packet serializer (spec/44_packet_serializer R231 to R240) -/

namespace Sys2Proof.Machine
open Host.Outcome

/-! ### What TX.SEND and TX.SEND1 answer -/

/-- The bytes under the checksum, with the little-endian length written as remainder and quotient (R231). -/
theorem packetBody_eq_div_mod (a c : Byte) (p : List Byte) :
    packetBody a c p = [a, c, BitVec.ofNat 8 (p.length % 256), BitVec.ofNat 8 (p.length / 256)] ++ p := by
  have hlow : lenLow p.length = BitVec.ofNat 8 (p.length % 256) := BitVec.eq_of_toNat_eq (by simp [lenLow])
  rw [packetBody, hlow, lenHigh]

/-- A payload above the maximum is no operand of TX.SEND (R234). -/
theorem execTxSend_tooLong {s : State} {a c : Byte} {p : List Byte} (hr : s.ready = true)
    (h : s.params.maxPayload < p.length) : execTxSend a c p s = refused .payloadTooLong := by
  rw [execTxSend, whenReady_true hr, txSend, if_pos h]

/-- TX.SEND1 is TX.SEND of the one byte in every state (R240). -/
theorem execTxSend1_eq_execTxSend (a c b : Byte) : execTxSend1 a c b = execTxSend a c [b] := rfl

/-- Settles O43: `packetBody` is the body, and SINK grows by its frame, which the escaped buffer holds whole. -/
theorem sendEmitsTheWholeFrame : Obligations.SendEmitsTheWholeFrame := fun _ a c p hw hr hp =>
  ⟨packetBody a c p, packetBody_eq_div_mod a c p, execTxSend_of_fits hw hr hp⟩

/-- Settles O44: the guard of the serializer fails. -/
theorem sendRefusesLongPayload : Obligations.SendRefusesLongPayload := fun _ _ _ _ hr hlong =>
  execTxSend_tooLong hr hlong

/-- The packet of one byte has the length 01 00. -/
theorem packetBody_singleton (a c b : Byte) : packetBody a c [b] = [a, c, 0x01#8, 0x00#8, b] := by
  simp [packetBody, lenLow, lenHigh]

/-- Settles O45: one byte is within the maximum of every admitted instance (R7). -/
theorem sendOneByteEmitsItsFrame : Obligations.SendOneByteEmitsItsFrame := by
  intro s a c b hw hr
  have hsend : execTxSend a c [b] s = next { s with sink := s.sink ++ frame a c [b], result := .sent } :=
    execTxSend_of_fits hw hr hw.payloadPos
  rw [frame, packet, packetBody_singleton] at hsend
  have hsame := congrFun (execTxSend1_eq_execTxSend a c b) s
  exact ⟨hsame, hsame.trans hsend⟩

/-! ### The shape of a frame -/

/-- A frame is the delimiter, the packet, and one byte more for each reserved byte of the packet (R132, R237). -/
theorem frame_length (a c : Byte) (p : List Byte) :
    (frame a c p).length = p.length + 6 + (packet a c p).countP (fun v => v = 0xAA#8 ∨ v = 0xAB#8) := by
  rw [frame, List.length_cons, stuff_length, packet_length]
  omega

/-- Settles O46: escaping hides the delimiter, adds at most one byte for each of the packet and can be undone, and the
packet ends with its own checksum. -/
theorem frameShape : Obligations.FrameShape := by
  intro a c p
  have hlength := frame_length a c p
  have hreserved : (packet a c p).countP (fun v => v = 0xAA#8 ∨ v = 0xAB#8) ≤ p.length + 5 :=
    packet_length a c p ▸ List.countP_le_length
  exact ⟨stuff (packet a c p), rfl, delim_not_mem_stuff _, by omega, by omega, unescape_stuff _,
    checksumResidueIsZero _⟩

end Sys2Proof.Machine

/-! ## The system operation (spec/45_system_ops R250, R251) -/

namespace Sys2Proof.Machine
open Host.Outcome

/-! ### RESET -/

/-- The idle parser is canonical up to the bytes of `P.pay`, which `idle` keeps (R187). -/
@[simp] theorem idle_idle (p : Parser) : idle (idle p) = idle p := rfl

/-- An emptied queue is already empty (R250). -/
@[simp] theorem Queue.clear_clear (q : Queue) : q.clear.clear = q.clear := rfl

/-- RESET has no guard: it completes from every state, in use or not (R250, R251). -/
theorem exec_reset (s : State) :
    exec .reset s = next { s with ready := true, p := idle s.p, q := s.q.clear, result := .nothing } := rfl

/-- Settles O6: RESET idles the parser and clears the queue, and both of these are idempotent. -/
theorem resetGivesIdleParserAndEmptyQueue : Obligations.ResetGivesIdleParserAndEmptyQueue := by
  intro s
  refine ⟨_, exec_reset s, rfl, idle_st _, idle_cleared _, Queue.clear_head _, Queue.clear_tail _, Queue.clear_count _,
    Queue.items_clear _ _, rfl, rfl, rfl, rfl, ?twice⟩
  case twice => rw [exec_reset, idle_idle, Queue.clear_clear]

/-! ### Before the first RESET -/

/-- Every row but RESET and the pure operations stands behind the guard of R251 as a whole. -/
theorem exec_eq_whenReady {i : Instr} (hi : validBeforeReset i = false) (s : State) :
    ∃ o : Answer, exec i s = whenReady s o := by
  cases i with
  | crc8Update _ _ | crc8Calc _ | escape _ | reset => cases hi
  | _ => exact ⟨_, rfl⟩

/-- RESET and the pure operations complete from every state (R251). -/
theorem exec_completes_of_validBeforeReset {i : Instr} (hi : validBeforeReset i = true) (s : State) :
    ∃ t : State, exec i s = next t := by
  cases i with
  | crc8Update _ _ | crc8Calc _ | escape _ => exact ⟨_, finish_eq _ _⟩
  | reset => exact ⟨_, exec_reset s⟩
  | _ => cases hi

/-- Settles O10: the guard refuses what stands behind it, and nothing stands before the rest. -/
theorem onlyPureOperationsAndResetBeforeReset : Obligations.OnlyPureOperationsAndResetBeforeReset := by
  intro i s hr
  refine ⟨fun hi => ?_, fun hi => exec_completes_of_validBeforeReset hi s⟩
  obtain ⟨o, ho⟩ := exec_eq_whenReady hi s
  rw [ho, whenReady_false hr]

end Sys2Proof.Machine

/-! ## Events and the five conditions (spec/60_exceptions R261 to R266), and the step without a word (R264) -/

namespace Sys2Proof.Machine
open Host.Outcome

/-! ### What the five conditions leave -/

/-- In the table of R186 a condition other than a resynchronisation ends the frame (R187, R266). -/
theorem Transition.st_of_condition {s : State} {b : Byte} {st : PState} {e : Event} (h : Transition s b st e)
    (hnone : e ≠ .evNone) (hok : e ≠ .evFrameOk) : st = if e = .evResync then .readAddr else .waitStart := by
  cases h with
  | delimInFrame => rfl
  | addrOther | lenTooLong | checksumFull | checksumBad => rfl
  | checksumOk => exact absurd rfl hok
  | _ => exact absurd rfl hnone

/-- Only the delimiter resynchronises (R171, R186). -/
theorem Transition.delim_of_resync {s : State} {b : Byte} {st : PState} (h : Transition s b st .evResync) :
    b = 0xAA#8 := by
  cases h with
  | delimInFrame hb => exact hb

/-- The byte that pushes is reported as a good frame (R185, R211). -/
theorem rxByte_frameOk_of_push {b : Byte} {s t : State} (hb : b ≠ 0xAA#8) (hst : s.p.st = .readChecksum)
    (hdata : dataOf s.p.esc b = some s.p.crc) (hroom : s.q.count ≠ s.params.queueCapacity)
    (hn : rxByte b s = next t) : t.result = .event .evFrameOk := by
  rw [rxByte_of_data hb (by simp [hst]) hdata] at hn
  simp only [dispatchData, hst] at hn
  cases (takeChecksum_of_room rfl hroom).symm.trans hn
  rfl

/-- RX that does not report a good frame leaves the queue as it was (R210, R266). -/
theorem rxByte_queue_of_not_frameOk {b : Byte} {s t : State} (hn : rxByte b s = next t)
    (hok : t.result ≠ .event .evFrameOk) : t.q = s.q := by
  obtain hq | ⟨hb, hst, hdata, hroom, -⟩ := rxByte_queue hn
  · exact hq
  · exact absurd (rxByte_frameOk_of_push hb hst hdata hroom hn) hok

/-- Settles O24: the table gives the state; a resynchronisation clears the registers at the start of its frame, and
after the other conditions the parser is idle, which the invariant makes canonical. -/
theorem conditionsLeaveParserClean : Obligations.ConditionsLeaveParserClean := by
  intro s t b e hi hr hn he hnone hok
  obtain ⟨e', he', htable⟩ := receiveFollowsTransitionTable s t b hi hr hn
  obtain rfl : e' = e := Result.event.inj (he'.symm.trans he)
  have hst := htable.st_of_condition hnone hok
  rw [exec_rx_of_ready hr] at hn
  refine ⟨rxByte_queue_of_not_frameOk hn (by simpa [he] using hok), ?cleared, hst⟩
  case cleared =>
    by_cases hresync : e' = .evResync
    · subst hresync
      obtain rfl := htable.delim_of_resync
      cases (rxByte_delim s).symm.trans hn
      exact frameStart_cleared _
    · rw [if_neg hresync] at hst
      exact ((rxByte_inv hr hi hn).live ((rxByte_received hn).ready.trans hr)).idleCleared hst

/-! ### The step without a word -/

/-- With no operation offered a step holds no output (R264; log 1). -/
theorem step_of_nil {s : State} (h : s.trace = []) : step s = next { s with result := .nothing } :=
  step_eq_next.mpr (.inl ⟨h, rfl⟩)

/-- Bytes that are no word are refused with the decoder's reason (log 2). -/
theorem step_of_undecodable {s : State} {why : DecodeError} (hne : s.trace ≠ []) (h : decode s.trace = .error why) :
    step s = refused (.undecodable why) := by
  unfold step
  split <;> rename_i ht
  · exact absurd ht hne
  · rw [← ht, h]

/-- Settles O5: the two steps that perform no operation. -/
theorem stepWithoutAWord : Obligations.StepWithoutAWord := fun _ =>
  ⟨step_of_nil, fun _ => step_of_undecodable⟩

/-! ### The event codes -/

/-- Settles O52: behind the guard of R251 each code is its own `report`. -/
theorem eventCodesAreEmitted : Obligations.EventCodesAreEmitted := by
  intro s hr row hrow
  obtain ⟨hexec, hcode⟩ : exec row.1 s = whenReady s (report row.2.1 s) ∧ row.2.1.code.toNat = row.2.2 := by
    simp only [List.mem_cons, List.not_mem_nil, or_false] at hrow
    rcases hrow with rfl | rfl | rfl | rfl | rfl | rfl | rfl <;> exact ⟨rfl, rfl⟩
  rw [hexec, whenReady_true hr, report_eq]
  exact ⟨rfl, hcode⟩

end Sys2Proof.Machine
